-- ==== Sys2Proof/Word.lean ====
section
/-! DEFINITION. The two kinds of bits the unit handles (00_scope.md R10): bytes and 16-bit words, both unsigned. -/

namespace Sys2Proof

/-- A byte: 8 bits, value 0 to 255 (R10). -/
abbrev Byte := BitVec 8

/-- A word: 16 bits, value 0 to 65535 (R10). Registers, the pc and addresses are words. -/
abbrev Word := BitVec 16

end Sys2Proof
end

