-- ==== Sys2Proof/Config.lean ====
section
/-! DEFINITION. What is fixed for the unit (00_scope.md R6, R7, R8). The number of registers (16) and the widths (8 and
16 bits) stand in the types, the instruction length (4 bytes) in the shape of `InstrBytes`. Nothing in this unit is a free value (93_implementation_defined.md section 2), so this file
holds no opaque constant. -/

namespace Sys2Proof.Config

/-- `MEMSIZE`: the data memory has the byte addresses 0 to 8191 (R6, R26). -/
def memSize : Nat := 8192

/-- The bound on `LEN`, the length of the instruction stream (R8). The bound is the spec's decision D4 (log entry 4). -/
def maxStreamLen : Nat := 65536

/-- The default of the parameter `GTE_CORRECTED` (R7, decision D2): the engine's defect is kept. The parameter itself is
`State.gteCorrected`, so that both of its values are modelled (log entry 2). -/
def gteCorrectedDefault : Bool := false

end Sys2Proof.Config
end

