-- ==== Sys2Proof/Machine/State.lean ====
section
/-! DEFINITION. The state of the unit (10_state.md), the reasons a step can stop, and the state after reset. -/

namespace Sys2Proof.Machine

/-- Which operand of an instruction was out of range (60_exceptions.md R160, R164, R169). -/
inductive RangeInfo where
  /-- An operand byte in a register role is 16 or above. -/
  | reg (operand : Byte)
  /-- The address of a 2-byte data access is 8191 or above. -/
  | mem (addr : Word)
deriving DecidableEq, Repr

/-- The five failures (R160), each with the info R160 lists for it. The info is diagnostic only (R169, log entry 5). -/
inductive Failure where
  /-- The normal end of a run: the fetch would read past the end of the stream (R161). -/
  | endOfProgram
  /-- The opcode byte is 23 or above (R162). -/
  | invalidOpcode (op : Byte)
  /-- `div` with a zero divisor (R163). -/
  | divisionByZero
  /-- A register operand byte of 16 or above, or a data address of 8191 or above (R164). -/
  | outOfRangeAccess (info : RangeInfo)
  /-- `jr` or `jrIfZero` (R165). -/
  | notImplemented (op : Byte)
deriving DecidableEq, Repr

/-- Whether the run goes on (R31). -/
inductive Status where
  | running
  | halted (f : Failure)
deriving DecidableEq, Repr

/-- Why the machine stops without a next state. -/
inductive Fault where
  /-- Raised by `step` on a halted unit: it takes no step until reset (R89, log entry 1). Safe: the unit does nothing
  there either. `f` is the failure that halted it. A failing step itself is no fault: it is a next state whose status is
  `halted f` (R166). -/
  | halted (f : Failure)
deriving DecidableEq, Repr

/-- Why the model gives no answer. -/
inductive Refusal where
  /-- An instruction with no meaning yet, rejected by name in `exec`. No arm answers it: every instruction has its
  meaning. Safe. -/
  | notModelled (mnemonic : String)
  /-- Raised by `step` when the instruction stream is longer than 65536 bytes (R8, decision D4, U10, log entry 4). Safe:
  no claim about such a stream can be proved. -/
  | streamTooLong
deriving DecidableEq, Repr

/-- The data memory: address and byte pairs in one canonical form, `Memory.wf`. An address that is not listed reads as 0,
the reset value of every byte (R28, R32). -/
abbrev Memory := List Host.Cell

/-- The canonical form: addresses strictly rising, all of them in the memory (0 to 8191, R26), and no entry equal to what
an unlisted address reads as (0, R28). -/
abbrev Memory.wf (m : Memory) : Prop :=
  m.Pairwise (fun c d => c.1 < d.1) ∧ ∀ c ∈ m, c.1 < Config.memSize ∧ c.2 ≠ 0#8

/-- The state of the unit: R20 (registers), R23 (pc), R26 (data memory), R31 (status). `prog` and `gteCorrected` are the
parameters of R7 and R8, which the spec calls fixed for a run and not state: they stand here because the step takes
nothing else, and no step writes them (log entry 2). `LEN` is `prog.length` (R29). -/
structure State where
  regs : Vector Word 16
  pc : Word
  mem : Memory
  status : Status
  prog : List Byte
  gteCorrected : Bool
deriving DecidableEq, Repr

/-- The unit as reset leaves it when it is handed the stream `prog` (R190, R32). -/
def State.construct (prog : List Byte) : State where
  regs := Vector.replicate 16 0
  pc := 0
  mem := []
  status := .running
  prog := prog
  gteCorrected := Config.gteCorrectedDefault

/-- The unit after a reset that hands it no bytes: `LEN = 0` (R32; the empty stream is log entry 3). -/
def State.reset : State := State.construct []

end Sys2Proof.Machine
end

