-- ==== Sys2Proof/Machine/Ops.lean ====
section
/-! DEFINITION. The named operations over bytes and words, registers, the pc and the data memory (00_scope.md R12,
20_memory.md R44, R45), and raising a failure (60_exceptions.md R166). -/

namespace Sys2Proof.Machine

/-! ## Bytes of a word (R10, R40) -/

/-- The word `(hi << 8) | lo` (R10). -/
def word16 (hi lo : Byte) : Word := hi ++ lo

/-- Bits 15 to 8 of a word. -/
def hiByte (v : Word) : Byte := v.extractLsb' 8 8

/-- Bits 7 to 0 of a word. -/
def loByte (v : Word) : Byte := v.extractLsb' 0 8

/-! ## Registers (R20 to R22) -/

/-- `x[i]`. -/
def State.reg (s : State) (i : Fin 16) : Word := s.regs[i.val]

/-- `x[i] <- v`. No register is hardwired (R21). -/
def State.setReg (s : State) (i : Fin 16) (v : Word) : State := { s with regs := s.regs.set i.val v }

/-! ## The program counter (R23) -/

/-- `pc <- t`. -/
def State.setPc (s : State) (t : Word) : State := { s with pc := t }

/-! ## The data memory (R26, R40 to R47) -/

/-- The byte at an address; an unlisted address reads as 0 (R28). -/
def Memory.byte : Memory → Nat → Byte
  | [], _ => 0#8
  | (k, u) :: m, a => if k = a then u else Memory.byte m a

/-- Writes one byte, keeping the canonical form `Memory.wf`: writing 0 removes the entry. -/
def Memory.setByte : Memory → Nat → Byte → Memory
  | [], a, v => if v = 0#8 then [] else [(a, v)]
  | (k, u) :: m, a, v =>
    if a < k then (if v = 0#8 then (k, u) :: m else (a, v) :: (k, u) :: m)
    else if a = k then (if v = 0#8 then m else (a, v) :: m)
    else (k, u) :: Memory.setByte m a v

/-- Writes a word at `a` and `a + 1`, the high byte first (R40). -/
def Memory.setWord (m : Memory) (a : Nat) (v : Word) : Memory := (m.setByte a (hiByte v)).setByte (a + 1) (loByte v)

/-- The data memory becomes `m`. -/
def State.setMem (s : State) (m : Memory) : State := { s with mem := m }

/-- `mem[a]`. -/
def State.byte (s : State) (a : Nat) : Byte := s.mem.byte a

/-- A 2-byte access at `addr` is out of range when `addr + 1 > 8191`, the sum not reduced (R44 to R46). -/
def accessOutOfRange (addr : Word) : Bool := decide (Config.memSize ≤ addr.toNat + 1)

/-- `MemRead(addr, 2)`: big-endian, no alignment constraint (R40, R42, R44). -/
def memRead (s : State) (addr : Word) : Except Failure Word :=
  if accessOutOfRange addr then .error (.outOfRangeAccess (.mem addr))
  else .ok (word16 (s.byte addr.toNat) (s.byte (addr.toNat + 1)))

/-- `MemWrite(addr, 2, v)`: big-endian; out of range, nothing is written, not even `mem[8191]` (R45, D9, log entry 12). -/
def memWrite (s : State) (addr : Word) (v : Word) : Except Failure State :=
  if accessOutOfRange addr then .error (.outOfRangeAccess (.mem addr))
  else .ok (s.setMem (s.mem.setWord addr.toNat v))

/-! ## Raising a failure (R12, R166)

This is the unit's one exception entry. Nothing is saved, there is no handler and no vector; the pc keeps the value it has
at the raise (R167). There is no return from it (R172): only reset leaves `halted`. -/

/-- `raise F(info)`: `status <- Halted(F)` and nothing else is written. -/
def State.raise (s : State) (f : Failure) : State := { s with status := .halted f }

/-- The end of a handler started in `s`: its result state, or `s` with the failure raised. All checks of a handler come
before its writes (R13), so a failure leaves no partial result. -/
def conclude (s : State) : Except Failure State → Host.Outcome State Fault Refusal
  | .ok t => .next t
  | .error f => .next (s.raise f)

end Sys2Proof.Machine
end

