-- ==== Sys2Proof/Machine/Operands.lean ====
section
/-! DEFINITION. The operand forms (30_encoding.md R63, R66, R67; 41_arithmetic.md R105): register operands, and the common
shapes of the instructions that read registers and write one. -/

namespace Sys2Proof.Machine

/-- `RegIdx(v)`: the whole byte is the index, never masked; 16 to 255 raise (R12, R67). -/
def regIdx (v : Byte) : Except Failure (Fin 16) :=
  if h : v.toNat < 16 then .ok ⟨v.toNat, h⟩ else .error (.outOfRangeAccess (.reg v))

/-- The common shape of every three-register instruction (R105): the indices are checked in the order `a`, `b`, `c`
(R84, D7, log entry 10), both sources are read, then `f` gives the value written to the destination, or a failure. -/
def threeReg (dst src1 src2 : Byte) (f : Word → Word → Except Failure Word) (s : State) :
    Host.Outcome State Fault Refusal :=
  conclude s do
    let d ← regIdx dst
    let s1 ← regIdx src1
    let s2 ← regIdx src2
    let v ← f (s.reg s1) (s.reg s2)
    return s.setReg d v

/-- The shape of the two-register instructions `copy` and `not`; their operand `c` is ignored (R110, R153). -/
def twoReg (dst src : Byte) (f : Word → Word) (s : State) : Host.Outcome State Fault Refusal :=
  conclude s do
    let d ← regIdx dst
    let s1 ← regIdx src
    return s.setReg d (f (s.reg s1))

end Sys2Proof.Machine
end

