-- ==== Sys2Proof/Machine/Arithmetic.lean ====
section
/-! DEFINITION. `add`, `mul`, `sub`, `div` (41_arithmetic.md R100 to R105): unsigned, modulo 65536. -/

namespace Sys2Proof.Machine

/-- `add` (R100). -/
def execAdd (dst src1 src2 : Byte) (s : State) : Host.Outcome State Fault Refusal :=
  threeReg dst src1 src2 (fun v1 v2 => .ok (v1 + v2)) s

/-- `mul` (R101). -/
def execMul (dst src1 src2 : Byte) (s : State) : Host.Outcome State Fault Refusal :=
  threeReg dst src1 src2 (fun v1 v2 => .ok (v1 * v2)) s

/-- `sub`: `src1` minus `src2` (R102). -/
def execSub (dst src1 src2 : Byte) (s : State) : Host.Outcome State Fault Refusal :=
  threeReg dst src1 src2 (fun v1 v2 => .ok (v1 - v2)) s

/-- The unsigned quotient rounded toward zero; a zero divisor raises (R103, R104). -/
def quotient (v1 v2 : Word) : Except Failure Word :=
  if v2 = 0#16 then .error .divisionByZero else .ok (v1 / v2)

/-- `div`: dividend `src1`, divisor `src2`; the register indices are checked before the divisor (R103, D7, log entry 10). -/
def execDiv (dst src1 src2 : Byte) (s : State) : Host.Outcome State Fault Refusal :=
  threeReg dst src1 src2 quotient s

end Sys2Proof.Machine
end

