-- ==== Sys2Proof/Machine/Bitwise.lean ====
section
/-! DEFINITION. `and`, `or`, `xor`, `not` (46_bitwise.md R150 to R154): bit by bit on 16 bits. -/

namespace Sys2Proof.Machine

/-- `and` (R150). -/
def execAnd (dst src1 src2 : Byte) (s : State) : Host.Outcome State Fault Refusal :=
  threeReg dst src1 src2 (fun v1 v2 => .ok (v1 &&& v2)) s

/-- `or` (R151). -/
def execOr (dst src1 src2 : Byte) (s : State) : Host.Outcome State Fault Refusal :=
  threeReg dst src1 src2 (fun v1 v2 => .ok (v1 ||| v2)) s

/-- `xor` (R152). -/
def execXor (dst src1 src2 : Byte) (s : State) : Host.Outcome State Fault Refusal :=
  threeReg dst src1 src2 (fun v1 v2 => .ok (v1 ^^^ v2)) s

/-- `not`; operand `c` is ignored (R153). -/
def execNot (dst src _c : Byte) (s : State) : Host.Outcome State Fault Refusal :=
  twoReg dst src (fun v => ~~~v) s

end Sys2Proof.Machine
end

