-- ==== Sys2Proof/Machine/Flags.lean ====
section
/-! DEFINITION. The unit has no flags (10_state.md section 3). What stands in their place is here: the relations that the
comparison instructions turn into the word 0 or 1 in a general register (44_compare.md R130 to R136), and the test for zero
of `jmpIfZero` (45_jump.md R141). -/

namespace Sys2Proof.Machine

/-- `b2w(p)`: the word 1 if `p` holds, the word 0 otherwise (R12, R136). -/
def b2w (p : Bool) : Word := if p then 1 else 0

/-- Equal (R130). -/
def relEq (v w : Word) : Bool := decide (v = w)

/-- Not equal (R131). -/
def relNeq (v w : Word) : Bool := decide (v ≠ w)

/-- Less than, unsigned (R132, D15, log entry 15). -/
def relLt (v w : Word) : Bool := decide (v.toNat < w.toNat)

/-- Less than or equal, unsigned (R133). -/
def relLte (v w : Word) : Bool := decide (v.toNat ≤ w.toNat)

/-- Greater than, unsigned (R134). -/
def relGt (v w : Word) : Bool := decide (w.toNat < v.toNat)

/-- What `gte` computes (R135, D2): greater than or equal when `GTE_CORRECTED`, else the engine's defect, less than. -/
def relGte (corrected : Bool) (v w : Word) : Bool :=
  if corrected then decide (w.toNat ≤ v.toNat) else relLt v w

/-- The test of `jmpIfZero`, on the whole 16-bit word (R141). -/
def isZero (v : Word) : Bool := decide (v = 0#16)

end Sys2Proof.Machine
end

