-- ==== Sys2Proof/Machine/Compare.lean ====
section
/-! DEFINITION. `eq`, `neq`, `lt`, `lte`, `gt`, `gte` (44_compare.md R130 to R136): `src1` on the left, `src2` on the
right; the whole destination word becomes 0 or 1. -/

namespace Sys2Proof.Machine

/-- `eq` (R130). -/
def execEq (dst src1 src2 : Byte) (s : State) : Host.Outcome State Fault Refusal :=
  threeReg dst src1 src2 (fun v1 v2 => .ok (b2w (relEq v1 v2))) s

/-- `neq` (R131). -/
def execNeq (dst src1 src2 : Byte) (s : State) : Host.Outcome State Fault Refusal :=
  threeReg dst src1 src2 (fun v1 v2 => .ok (b2w (relNeq v1 v2))) s

/-- `lt` (R132). -/
def execLt (dst src1 src2 : Byte) (s : State) : Host.Outcome State Fault Refusal :=
  threeReg dst src1 src2 (fun v1 v2 => .ok (b2w (relLt v1 v2))) s

/-- `lte` (R133). -/
def execLte (dst src1 src2 : Byte) (s : State) : Host.Outcome State Fault Refusal :=
  threeReg dst src1 src2 (fun v1 v2 => .ok (b2w (relLte v1 v2))) s

/-- `gt` (R134). -/
def execGt (dst src1 src2 : Byte) (s : State) : Host.Outcome State Fault Refusal :=
  threeReg dst src1 src2 (fun v1 v2 => .ok (b2w (relGt v1 v2))) s

/-- `gte` (R135): the parameter `GTE_CORRECTED` selects what it computes. -/
def execGte (dst src1 src2 : Byte) (s : State) : Host.Outcome State Fault Refusal :=
  threeReg dst src1 src2 (fun v1 v2 => .ok (b2w (relGte s.gteCorrected v1 v2))) s

end Sys2Proof.Machine
end

