-- ==== Sys2Proof/Machine/Jump.lean ====
section
/-! DEFINITION. `jmp`, `jmpIfZero`, `jr`, `jrIfZero` (45_jump.md R140 to R144). A handler runs with the pc already advanced
(R83): a taken jump overwrites it with the absolute target, any 16-bit value. -/

namespace Sys2Proof.Machine

/-- `jmp`; operand `c` is ignored (R140). -/
def execJmp (addrHi addrLo _c : Byte) (s : State) : Host.Outcome State Fault Refusal :=
  conclude s (.ok (s.setPc (word16 addrHi addrLo)))

/-- `jmpIfZero`: the register index is checked whether or not the jump is taken (R141). -/
def execJmpIfZero (addrHi addrLo src : Byte) (s : State) : Host.Outcome State Fault Refusal :=
  conclude s do
    let s1 ← regIdx src
    return if isZero (s.reg s1) then s.setPc (word16 addrHi addrLo) else s

/-- `jr`: the spec rejects it. It raises `NotImplemented` with its opcode byte and looks at no operand
(R142, D3, log entry 7). -/
def execJr (_a _b _c : Byte) (s : State) : Host.Outcome State Fault Refusal :=
  conclude s (.error (.notImplemented 17))

/-- `jrIfZero`: as `jr`; the condition is never evaluated (R143, D3, log entry 7). -/
def execJrIfZero (_a _b _c : Byte) (s : State) : Host.Outcome State Fault Refusal :=
  conclude s (.error (.notImplemented 18))

end Sys2Proof.Machine
end

