-- ==== Sys2Proof/Machine/LoadStore.lean ====
section
/-! DEFINITION. `load`, `store` (43_load_store.md R120 to R122): absolute addresses, 2 bytes, big-endian. -/

namespace Sys2Proof.Machine

/-- `load`: the register index is checked before the address (R120). -/
def execLoad (dst addrHi addrLo : Byte) (s : State) : Host.Outcome State Fault Refusal :=
  conclude s do
    let d ← regIdx dst
    let v ← memRead s (word16 addrHi addrLo)
    return s.setReg d v

/-- `store`: the register is the last operand; its index is checked before the address (R121). -/
def execStore (addrHi addrLo src : Byte) (s : State) : Host.Outcome State Fault Refusal :=
  conclude s do
    let s1 ← regIdx src
    memWrite s (word16 addrHi addrLo) (s.reg s1)

end Sys2Proof.Machine
end

