-- ==== Sys2Proof/Machine/Move.lean ====
section
/-! DEFINITION. `copy`, `loadimm` (42_move.md R110, R111). -/

namespace Sys2Proof.Machine

/-- `copy`; operand `c` is ignored (R110). -/
def execCopy (dst src _c : Byte) (s : State) : Host.Outcome State Fault Refusal :=
  twoReg dst src (fun v => v) s

/-- `loadimm`: `hi` and `lo` are plain bytes (R111). -/
def execLoadimm (dst hi lo : Byte) (s : State) : Host.Outcome State Fault Refusal :=
  conclude s do
    let d ← regIdx dst
    return s.setReg d (word16 hi lo)

end Sys2Proof.Machine
end

