-- ==== Sys2Proof/Machine/Nop.lean ====
section
/-! DEFINITION. `nop` (40_step_and_nop.md R90). -/

namespace Sys2Proof.Machine

/-- `nop`: no effect; the operand bytes are ignored (R90). -/
def execNop (_a _b _c : Byte) (s : State) : Host.Outcome State Fault Refusal := conclude s (.ok s)

end Sys2Proof.Machine
end

