-- ==== Sys2Proof/Syntax.lean ====
section
/-! DEFINITION. The instructions: one constructor per row of spec/opcode_table.json (30_encoding.md R63, R64). -/

namespace Sys2Proof

/-- An instruction: the row its opcode byte selects, with its three operand bytes in stream order, each named by its role
in R63. A register operand is the WHOLE byte (R61, R67): 16 to 255 are kept here and raise when the instruction runs.
An ignored operand (role `-`, R68) is kept too, named by its place `a`, `b` or `c`, so that encoding drops no bit. -/
inductive Instr where
  | nop (a b c : Byte)
  | add (dst src1 src2 : Byte)
  | mul (dst src1 src2 : Byte)
  | sub (dst src1 src2 : Byte)
  | div (dst src1 src2 : Byte)
  | copy (dst src c : Byte)
  | loadimm (dst hi lo : Byte)
  | load (dst addrHi addrLo : Byte)
  | store (addrHi addrLo src : Byte)
  | eq (dst src1 src2 : Byte)
  | neq (dst src1 src2 : Byte)
  | lt (dst src1 src2 : Byte)
  | lte (dst src1 src2 : Byte)
  | gt (dst src1 src2 : Byte)
  | gte (dst src1 src2 : Byte)
  | jmp (addrHi addrLo c : Byte)
  | jmpIfZero (addrHi addrLo src : Byte)
  | jr (a b c : Byte)
  | jrIfZero (a b c : Byte)
  | and (dst src1 src2 : Byte)
  | or (dst src1 src2 : Byte)
  | xor (dst src1 src2 : Byte)
  | not (dst src c : Byte)
deriving DecidableEq, Repr

end Sys2Proof
end

