-- ==== Sys2Proof/Machine/Dispatch.lean ====
section
/-! DEFINITION. The dispatch of 40_step_and_nop.md R84: one handler per instruction, run with the pc already advanced. -/

namespace Sys2Proof.Machine

def exec (i : Instr) (s : State) : Host.Outcome State Fault Refusal :=
  match i with
  | .nop a b c => Sys2Proof.Machine.execNop a b c s
  | .add dst src1 src2 => Sys2Proof.Machine.execAdd dst src1 src2 s
  | .mul dst src1 src2 => Sys2Proof.Machine.execMul dst src1 src2 s
  | .sub dst src1 src2 => Sys2Proof.Machine.execSub dst src1 src2 s
  | .div dst src1 src2 => Sys2Proof.Machine.execDiv dst src1 src2 s
  | .copy dst src c => Sys2Proof.Machine.execCopy dst src c s
  | .loadimm dst hi lo => Sys2Proof.Machine.execLoadimm dst hi lo s
  | .load dst addrHi addrLo => Sys2Proof.Machine.execLoad dst addrHi addrLo s
  | .store addrHi addrLo src => Sys2Proof.Machine.execStore addrHi addrLo src s
  | .eq dst src1 src2 => Sys2Proof.Machine.execEq dst src1 src2 s
  | .neq dst src1 src2 => Sys2Proof.Machine.execNeq dst src1 src2 s
  | .lt dst src1 src2 => Sys2Proof.Machine.execLt dst src1 src2 s
  | .lte dst src1 src2 => Sys2Proof.Machine.execLte dst src1 src2 s
  | .gt dst src1 src2 => Sys2Proof.Machine.execGt dst src1 src2 s
  | .gte dst src1 src2 => Sys2Proof.Machine.execGte dst src1 src2 s
  | .jmp addrHi addrLo c => Sys2Proof.Machine.execJmp addrHi addrLo c s
  | .jmpIfZero addrHi addrLo src => Sys2Proof.Machine.execJmpIfZero addrHi addrLo src s
  | .jr a b c => Sys2Proof.Machine.execJr a b c s
  | .jrIfZero a b c => Sys2Proof.Machine.execJrIfZero a b c s
  | .and dst src1 src2 => Sys2Proof.Machine.execAnd dst src1 src2 s
  | .or dst src1 src2 => Sys2Proof.Machine.execOr dst src1 src2 s
  | .xor dst src1 src2 => Sys2Proof.Machine.execXor dst src1 src2 s
  | .not dst src c => Sys2Proof.Machine.execNot dst src c s

end Sys2Proof.Machine
end

