-- ==== Sys2Proof/WellFormed.lean ====
section
/-! DEFINITION. Which operand bytes are register indices, when they are valid, and which bytes are ignored
(30_encoding.md R63, R67, R68). An instruction that is not well-formed is still an instruction: it decodes, and running it
raises `OutOfRangeAccess` (60_exceptions.md R164). -/

namespace Sys2Proof

/-- The operand bytes in a register role, in the order `a`, `b`, `c` in which they are checked (R63, R84). `jr` and
`jrIfZero` have none that is used (R142, R143). -/
def Instr.regOperands : Instr → List Byte
  | .nop _ _ _ => []
  | .add d s t => [d, s, t]
  | .mul d s t => [d, s, t]
  | .sub d s t => [d, s, t]
  | .div d s t => [d, s, t]
  | .copy d s _ => [d, s]
  | .loadimm d _ _ => [d]
  | .load d _ _ => [d]
  | .store _ _ s => [s]
  | .eq d s t => [d, s, t]
  | .neq d s t => [d, s, t]
  | .lt d s t => [d, s, t]
  | .lte d s t => [d, s, t]
  | .gt d s t => [d, s, t]
  | .gte d s t => [d, s, t]
  | .jmp _ _ _ => []
  | .jmpIfZero _ _ s => [s]
  | .jr _ _ _ => []
  | .jrIfZero _ _ _ => []
  | .and d s t => [d, s, t]
  | .or d s t => [d, s, t]
  | .xor d s t => [d, s, t]
  | .not d s _ => [d, s]

/-- The operand byte in the role `dst`: the only register an instruction may write (R22, R63). -/
def Instr.dstOperand : Instr → Option Byte
  | .nop _ _ _ => none
  | .add d _ _ => some d
  | .mul d _ _ => some d
  | .sub d _ _ => some d
  | .div d _ _ => some d
  | .copy d _ _ => some d
  | .loadimm d _ _ => some d
  | .load d _ _ => some d
  | .store _ _ _ => none
  | .eq d _ _ => some d
  | .neq d _ _ => some d
  | .lt d _ _ => some d
  | .lte d _ _ => some d
  | .gt d _ _ => some d
  | .gte d _ _ => some d
  | .jmp _ _ _ => none
  | .jmpIfZero _ _ _ => none
  | .jr _ _ _ => none
  | .jrIfZero _ _ _ => none
  | .and d _ _ => some d
  | .or d _ _ => some d
  | .xor d _ _ => some d
  | .not d _ _ => some d

/-- The operand bytes in a `src`, `src1` or `src2` role: the only registers an instruction may read (R22, R63). -/
def Instr.srcOperands : Instr → List Byte
  | .nop _ _ _ => []
  | .add _ s t => [s, t]
  | .mul _ s t => [s, t]
  | .sub _ s t => [s, t]
  | .div _ s t => [s, t]
  | .copy _ s _ => [s]
  | .loadimm _ _ _ => []
  | .load _ _ _ => []
  | .store _ _ s => [s]
  | .eq _ s t => [s, t]
  | .neq _ s t => [s, t]
  | .lt _ s t => [s, t]
  | .lte _ s t => [s, t]
  | .gt _ s t => [s, t]
  | .gte _ s t => [s, t]
  | .jmp _ _ _ => []
  | .jmpIfZero _ _ s => [s]
  | .jr _ _ _ => []
  | .jrIfZero _ _ _ => []
  | .and _ s t => [s, t]
  | .or _ s t => [s, t]
  | .xor _ s t => [s, t]
  | .not _ s _ => [s]

/-- The first register operand that selects no register (R67), in the order of the checks (R168 item 4). -/
def Instr.firstBadReg (i : Instr) : Option Byte :=
  i.regOperands.find? fun v => decide (16 ≤ v.toNat)

/-- Well-formed: every register operand is 0 to 15 (R67). -/
def Instr.wf (i : Instr) : Bool :=
  i.regOperands.all fun v => decide (v.toNat < 16)

/-- The canonical spelling: 0 in every ignored place (R68, R71). All three operands of `jr` and `jrIfZero` are ignored. -/
def Instr.canonical : Instr → Instr
  | .nop _ _ _ => .nop 0 0 0
  | .add d s t => .add d s t
  | .mul d s t => .mul d s t
  | .sub d s t => .sub d s t
  | .div d s t => .div d s t
  | .copy d s _ => .copy d s 0
  | .loadimm d h l => .loadimm d h l
  | .load d h l => .load d h l
  | .store h l s => .store h l s
  | .eq d s t => .eq d s t
  | .neq d s t => .neq d s t
  | .lt d s t => .lt d s t
  | .lte d s t => .lte d s t
  | .gt d s t => .gt d s t
  | .gte d s t => .gte d s t
  | .jmp h l _ => .jmp h l 0
  | .jmpIfZero h l s => .jmpIfZero h l s
  | .jr _ _ _ => .jr 0 0 0
  | .jrIfZero _ _ _ => .jrIfZero 0 0 0
  | .and d s t => .and d s t
  | .or d s t => .or d s t
  | .xor d s t => .xor d s t
  | .not d s _ => .not d s 0

end Sys2Proof
end

