-- ==== Sys2Proof/Decode.lean ====
section
/-! DEFINITION. The instruction encoding (30_encoding.md): the opcode map in one table, the decoder, and the encoder
written from the same table. -/

namespace Sys2Proof

/-- The 23 mnemonics of R64. -/
inductive Mnemonic where
  | nop | add | mul | sub | div | copy | loadimm | load | store | eq | neq | lt | lte | gt | gte | jmp | jmpIfZero
  | jr | jrIfZero | and | or | xor | not
deriving DecidableEq, Repr

/-- The opcode map of R64: the position in the list is the opcode byte. The one place where opcode numbers stand, as R65
asks. Only the numbers 0, 1 and 6 are shown by the source; the others are the spec's decision D1 (log entry 6). -/
def opcodeMap : List Mnemonic :=
  [.nop, .add, .mul, .sub, .div, .copy, .loadimm, .load, .store, .eq, .neq, .lt, .lte, .gt, .gte, .jmp, .jmpIfZero,
   .jr, .jrIfZero, .and, .or, .xor, .not]

/-- The four bytes of an instruction in stream order (R60, R61). -/
structure InstrBytes where
  op : Byte
  a : Byte
  b : Byte
  c : Byte
deriving DecidableEq, Repr

/-- Why bytes are no instruction. -/
inductive DecodeError where
  /-- The opcode byte is 23 or above (R69). -/
  | invalidOpcode (op : Byte)
  /-- There are fewer than four bytes (R81: a truncated tail is never decoded). -/
  | truncated
deriving DecidableEq, Repr

/-- The instruction of a mnemonic with operand bytes `a`, `b`, `c` in stream order (roles of R63). -/
def Mnemonic.build : Mnemonic → Byte → Byte → Byte → Instr
  | .nop, a, b, c => .nop a b c
  | .add, a, b, c => .add a b c
  | .mul, a, b, c => .mul a b c
  | .sub, a, b, c => .sub a b c
  | .div, a, b, c => .div a b c
  | .copy, a, b, c => .copy a b c
  | .loadimm, a, b, c => .loadimm a b c
  | .load, a, b, c => .load a b c
  | .store, a, b, c => .store a b c
  | .eq, a, b, c => .eq a b c
  | .neq, a, b, c => .neq a b c
  | .lt, a, b, c => .lt a b c
  | .lte, a, b, c => .lte a b c
  | .gt, a, b, c => .gt a b c
  | .gte, a, b, c => .gte a b c
  | .jmp, a, b, c => .jmp a b c
  | .jmpIfZero, a, b, c => .jmpIfZero a b c
  | .jr, a, b, c => .jr a b c
  | .jrIfZero, a, b, c => .jrIfZero a b c
  | .and, a, b, c => .and a b c
  | .or, a, b, c => .or a b c
  | .xor, a, b, c => .xor a b c
  | .not, a, b, c => .not a b c

/-- Decoding looks at the opcode byte alone (R62): a position of the opcode map, or `InvalidOpcode` (R69). -/
def decode (w : InstrBytes) : Except DecodeError Instr :=
  match opcodeMap[w.op.toNat]? with
  | some m => .ok (m.build w.a w.b w.c)
  | none => .error (.invalidOpcode w.op)

/-- The decoder on any bytes: the first four are the instruction (R60). -/
def decodeBytes : List Byte → Except DecodeError Instr
  | op :: a :: b :: c :: _ => decode ⟨op, a, b, c⟩
  | _ => .error .truncated

/-- A whole byte sequence read as instructions one after another from offset 0 (R60, R61). -/
def decodeProgram : List Byte → Except DecodeError (List Instr)
  | [] => .ok []
  | op :: a :: b :: c :: rest =>
    match decode ⟨op, a, b, c⟩, decodeProgram rest with
    | .ok i, .ok is => .ok (i :: is)
    | .error e, _ => .error e
    | .ok _, .error e => .error e
  | _ :: _ => .error .truncated

/-- The mnemonic of an instruction. -/
def Instr.mnemonic : Instr → Mnemonic
  | .nop _ _ _ => .nop
  | .add _ _ _ => .add
  | .mul _ _ _ => .mul
  | .sub _ _ _ => .sub
  | .div _ _ _ => .div
  | .copy _ _ _ => .copy
  | .loadimm _ _ _ => .loadimm
  | .load _ _ _ => .load
  | .store _ _ _ => .store
  | .eq _ _ _ => .eq
  | .neq _ _ _ => .neq
  | .lt _ _ _ => .lt
  | .lte _ _ _ => .lte
  | .gt _ _ _ => .gt
  | .gte _ _ _ => .gte
  | .jmp _ _ _ => .jmp
  | .jmpIfZero _ _ _ => .jmpIfZero
  | .jr _ _ _ => .jr
  | .jrIfZero _ _ _ => .jrIfZero
  | .and _ _ _ => .and
  | .or _ _ _ => .or
  | .xor _ _ _ => .xor
  | .not _ _ _ => .not

/-- The opcode byte of an instruction: the position of its mnemonic in the opcode map (R64). -/
def Instr.opcode (i : Instr) : Byte := BitVec.ofNat 8 (opcodeMap.idxOf i.mnemonic)

/-- The encoder (R61, R63): the opcode byte, then the operands in stream order. -/
def encode (i : Instr) : InstrBytes :=
  match i with
  | .nop a b c => ⟨i.opcode, a, b, c⟩
  | .add dst src1 src2 => ⟨i.opcode, dst, src1, src2⟩
  | .mul dst src1 src2 => ⟨i.opcode, dst, src1, src2⟩
  | .sub dst src1 src2 => ⟨i.opcode, dst, src1, src2⟩
  | .div dst src1 src2 => ⟨i.opcode, dst, src1, src2⟩
  | .copy dst src c => ⟨i.opcode, dst, src, c⟩
  | .loadimm dst hi lo => ⟨i.opcode, dst, hi, lo⟩
  | .load dst addrHi addrLo => ⟨i.opcode, dst, addrHi, addrLo⟩
  | .store addrHi addrLo src => ⟨i.opcode, addrHi, addrLo, src⟩
  | .eq dst src1 src2 => ⟨i.opcode, dst, src1, src2⟩
  | .neq dst src1 src2 => ⟨i.opcode, dst, src1, src2⟩
  | .lt dst src1 src2 => ⟨i.opcode, dst, src1, src2⟩
  | .lte dst src1 src2 => ⟨i.opcode, dst, src1, src2⟩
  | .gt dst src1 src2 => ⟨i.opcode, dst, src1, src2⟩
  | .gte dst src1 src2 => ⟨i.opcode, dst, src1, src2⟩
  | .jmp addrHi addrLo c => ⟨i.opcode, addrHi, addrLo, c⟩
  | .jmpIfZero addrHi addrLo src => ⟨i.opcode, addrHi, addrLo, src⟩
  | .jr a b c => ⟨i.opcode, a, b, c⟩
  | .jrIfZero a b c => ⟨i.opcode, a, b, c⟩
  | .and dst src1 src2 => ⟨i.opcode, dst, src1, src2⟩
  | .or dst src1 src2 => ⟨i.opcode, dst, src1, src2⟩
  | .xor dst src1 src2 => ⟨i.opcode, dst, src1, src2⟩
  | .not dst src c => ⟨i.opcode, dst, src, c⟩

/-- The four bytes as a list in stream order. -/
def InstrBytes.toList (w : InstrBytes) : List Byte := [w.op, w.a, w.b, w.c]

/-- A program as a byte sequence: the instructions' encodings one after another. -/
def encodeProgram (is : List Instr) : List Byte := is.flatMap fun i => (encode i).toList

/-- The instruction written as one 32-bit pattern `I = op ++ a ++ b ++ c` (R11): the numbering of R61 and of
spec/opcode_table.json, with the opcode byte in bits 31 to 24. -/
def InstrBytes.toPattern (w : InstrBytes) : BitVec 32 := w.op ++ w.a ++ w.b ++ w.c

/-- The instruction bytes of the 32-bit pattern `I = op ++ a ++ b ++ c` (00_scope.md R11, decision D19, log entry 16):
a writing convention of spec/opcode_table.json, which the unit never forms. -/
def InstrBytes.ofPattern (I : BitVec 32) : InstrBytes :=
  ⟨I.extractLsb' 24 8, I.extractLsb' 16 8, I.extractLsb' 8 8, I.extractLsb' 0 8⟩

/-- The bytes of the instruction whose bits are `w`, numbered as spec/opcode_table.json numbers them: bits 31 to 24 are
the opcode byte, which comes first in the stream (R11, R61). Bits from `nbits` on are 0. -/
def tableWordBytes (nbits w : Nat) : InstrBytes :=
  InstrBytes.ofPattern (BitVec.ofNat 32 (w % 2 ^ nbits))

/-- The instruction the decoder reads from an instruction whose bits are `w` in the opcode table's numbering. -/
def decodeTableWord (nbits w : Nat) : Option Instr :=
  (decodeBytes (tableWordBytes nbits w).toList).toOption

end Sys2Proof
end

