-- ==== Sys2Proof/Machine/Fetch.lean ====
section
/-! DEFINITION. The stages of the step before dispatch: end-of-stream test, fetch, advance, decode
(40_step_and_nop.md R80 to R84), and placing an instruction where the next fetch reads. -/

namespace Sys2Proof.Machine

/-- `LEN`: the length of the instruction stream (R8, R29). -/
def State.len (s : State) : Nat := s.prog.length

/-- The stream is one the spec's unit can be handed: `LEN <= 65536` (R8, D4, log entry 4). -/
def State.streamFits (s : State) : Bool := decide (s.len ≤ Config.maxStreamLen)

/-- Stages 1 and 2: `EndOfProgram` if `pc + 4 > LEN`, the sum not reduced (R81); else the four bytes at `pc` to `pc + 3`
(R82), whatever `pc` is modulo 4 (R43, D6, log entry 9). -/
def fetch (s : State) : Except Failure InstrBytes :=
  if h : s.pc.toNat + 4 ≤ s.prog.length then
    .ok ⟨s.prog[s.pc.toNat], s.prog[s.pc.toNat + 1], s.prog[s.pc.toNat + 2], s.prog[s.pc.toNat + 3]⟩
  else .error .endOfProgram

/-- Stage 3: `pc <- (pc + 4) mod 65536` (R83, R25, D5, log entry 8). -/
def advance (s : State) : State := s.setPc (s.pc + 4)

/-- Stage 4: the instruction of the fetched bytes, or `InvalidOpcode` (R84, R69). The error `truncated` does not occur:
four bytes are fetched or none. -/
def decodeFetched (w : InstrBytes) : Except Failure Instr :=
  match decode w with
  | .ok i => .ok i
  | .error _ => .error (.invalidOpcode w.op)

/-- The stream with the four bytes of `w` at offset `p`, zero bytes filling any gap before `p`. -/
def placeAt (prog : List Byte) (p : Nat) (w : InstrBytes) : List Byte :=
  prog.take p ++ List.replicate (p - prog.length) 0#8 ++ w.toList ++ prog.drop (p + 4)

/-- The offset where an instruction can be placed for the next fetch: `pc`, or 0 when no stream of at most 65536 bytes
holds four bytes at `pc` (R8, R81, log entry 3). -/
def placePc (s : State) : Word := if s.pc.toNat + 4 ≤ Config.maxStreamLen then s.pc else 0

/-- `s` with the instruction `w` placed where the next fetch reads: the stream is written, as only the outside can (R190,
R198), and cut at 65536 bytes (R8); the pc changes only when nothing can be fetched there; the status is `running`, since a
halted unit takes no step (R89, log entry 3). -/
def State.placeNext (s : State) (w : InstrBytes) : State :=
  { s with
    pc := placePc s
    status := .running
    prog := (placeAt s.prog (placePc s).toNat w).take Config.maxStreamLen }

end Sys2Proof.Machine
end

