-- ==== Sys2Proof/Machine/Tick.lean ====
section
/-! DEFINITION. The stages of the step put together (40_step_and_nop.md R80). -/

namespace Sys2Proof.Machine

/-- Stages 3 and 4 on fetched bytes: the pc is advanced before dispatch (R83), so it is advanced even when the opcode is
invalid or the handler fails (R167). -/
def dispatchFetched (w : InstrBytes) (s : State) : Host.Outcome State Fault Refusal :=
  match decodeFetched w with
  | .ok i => exec i (advance s)
  | .error f => .next ((advance s).raise f)

/-- The step of a running unit (R80). -/
def tick (s : State) : Host.Outcome State Fault Refusal :=
  match fetch s with
  | .ok w => dispatchFetched w s
  | .error f => .next (s.raise f)

/-- The step of a running unit handed a stream the spec allows; a longer stream is refused (D4, U10, log entry 4). -/
def runningStep (s : State) : Host.Outcome State Fault Refusal :=
  if s.streamFits then tick s else .refused .streamTooLong

end Sys2Proof.Machine
end

