-- ==== Sys2Proof/Machine/Step.lean ====
section
/-! DEFINITION. The step (40_step_and_nop.md R80), the only transition of the unit. -/

namespace Sys2Proof.Machine

/-- One step. It is defined when `status = Running` (R80); a halted unit takes none (R89, log entry 1). -/
def step (s : State) : Host.Outcome State Fault Refusal :=
  match s.status with
  | .halted f => .fault (.halted f)
  | .running => runningStep s

/-- `s` with the instruction whose bits are `w` (numbered as spec/opcode_table.json numbers them) stored where `step`
fetches its next instruction (log entry 3). -/
def State.withFetchWord (s : State) (nbits w : Nat) : State := s.placeNext (tableWordBytes nbits w)

end Sys2Proof.Machine
end

