-- ==== Sys2Proof/Machine/Ports.lean ====
section
/-! DEFINITION. The unit's exchanges with the outside (70_reset_and_hazards.md R195 to R199) and the run loop
(40_step_and_nop.md R87 to R89). -/

namespace Sys2Proof.Machine

/-- The failure codes of R160 (D13, log entry 13). The info plays no part (R169). -/
def Failure.code : Failure → Nat
  | .endOfProgram => 1
  | .invalidOpcode _ => 2
  | .divisionByZero => 3
  | .outOfRangeAccess _ => 4
  | .notImplemented _ => 5

/-- The status port (R197): 0 while running, else the failure's code (R160). -/
def statusPort (s : State) : Nat :=
  match s.status with
  | .running => 0
  | .halted f => f.code

/-- What the observer port shows of the step taken from `s` (R196): after a successful step, and only then, the pc and the
16 registers. Memory is not shown. -/
def observerPort (s : State) : Option (Word × Vector Word 16) :=
  match step s with
  | .next t => if t.status = .running then some (t.pc, t.regs) else none
  | .fault _ => none
  | .refused _ => none

/-- The reset input (R199, R190), in any state, running or halted: everything is discarded and the unit is built anew
around a possibly new stream (D20, log entry 17). `GTE_CORRECTED` is a property of the unit and stays (R7). -/
def applyReset (prog : List Byte) (s : State) : State :=
  { State.construct prog with gteCorrected := s.gteCorrected }

/-- The run loop (R87) under fuel: the step is taken again and again while the status is `running`. Running out of fuel is
no halt of the unit (R88, U16): the state answered then is still running. -/
def runLoop : Nat → State → Host.Outcome State Fault Refusal
  | 0, s => .next s
  | n + 1, s =>
    match s.status with
    | .halted _ => .next s
    | .running =>
      match step s with
      | .next t => runLoop n t
      | .fault r => .fault r
      | .refused r => .refused r

end Sys2Proof.Machine
end

