-- ==== Sys2Proof/Safety.lean ====
section
/-! DEFINITION. The terms claims are made in: the invariant, what it is for a run to end well, and what an instruction
leaves unchanged. -/

namespace Sys2Proof.Machine

/-- The invariant of the unit: the data memory is in its canonical form and holds only addresses 0 to 8191 (R26), and the
stream has at most 65536 bytes (R8). -/
def StateInv (s : State) : Prop := s.mem.wf ∧ s.prog.length ≤ 65536

/-- What R32 gives for the state after reset: every register 0, every byte of the data memory 0, pc 0, `Running`. -/
def AsResetLeavesIt (s : State) : Prop :=
  (∀ r, s.reg r = 0#16) ∧ (∀ k, k < 8192 → s.byte k = 0#8) ∧ s.pc = 0#16 ∧ s.status = .running

/-- The run ended normally (R88, R161). -/
def EndedNormally (s : State) : Prop := s.status = .halted .endOfProgram

/-- The run ended in a fault (R88): any failure but `EndOfProgram`. -/
def EndedInFault (s : State) : Prop := ∃ f, s.status = .halted f ∧ f ≠ .endOfProgram

/-- The parameters are the same (R7, R8). -/
def SameParams (s t : State) : Prop := t.prog = s.prog ∧ t.gteCorrected = s.gteCorrected

/-- Every byte of the data memory reads the same. -/
def SameMemory (s t : State) : Prop := ∀ a, t.byte a = s.byte a

/-- Every register reads the same. -/
def SameRegs (s t : State) : Prop := ∀ r, t.reg r = s.reg r

/-- `t` is `s` with register `d` holding `v` and nothing else changed: every other register, the pc, every byte of memory,
the status and the parameters are as in `s`. -/
def OnlyRegisterWritten (s t : State) (d : Fin 16) (v : Word) : Prop :=
  t.reg d = v ∧ (∀ r, r ≠ d → t.reg r = s.reg r) ∧ t.pc = s.pc ∧ SameMemory s t ∧ t.status = s.status ∧ SameParams s t

/-- `t` is `s` with the pc holding `v` and nothing else changed. -/
def OnlyPcWritten (s t : State) (v : Word) : Prop :=
  t.pc = v ∧ SameRegs s t ∧ SameMemory s t ∧ t.status = s.status ∧ SameParams s t

/-- `t` is `s` with the failure `f` raised and nothing else changed (R166). -/
def OnlyFailureRaised (s t : State) (f : Failure) : Prop :=
  t.status = .halted f ∧ SameRegs s t ∧ t.pc = s.pc ∧ SameMemory s t ∧ SameParams s t

/-- A three-register instruction whose operands all select registers completes in every state: its destination becomes
the word `value v w` of its sources' values `v` and `w`, read before the write, and nothing else changes (R105). The three
registers may be equal in any combination. -/
def WritesFromTwo (mk : Byte → Byte → Byte → Instr) (value : Nat → Nat → Nat) : Prop :=
  ∀ (dst src1 src2 : Byte) (d r1 r2 : Fin 16) (s : State),
    dst.toNat = d.val → src1.toNat = r1.val → src2.toNat = r2.val →
    ∃ t v, exec (mk dst src1 src2) s = .next t ∧ OnlyRegisterWritten s t d v ∧
      v.toNat = value (s.reg r1).toNat (s.reg r2).toNat

/-- A three-register instruction with an operand byte of 16 or above raises `OutOfRangeAccess` for such an operand in every
state, and nothing is written but the status (R164, R166). -/
def BadRegisterRaises (mk : Byte → Byte → Byte → Instr) : Prop :=
  ∀ (dst src1 src2 : Byte) (s : State), 16 ≤ dst.toNat ∨ 16 ≤ src1.toNat ∨ 16 ≤ src2.toNat →
    ∃ t v, exec (mk dst src1 src2) s = .next t ∧ v ∈ [dst, src1, src2] ∧ 16 ≤ v.toNat ∧
      OnlyFailureRaised s t (.outOfRangeAccess (.reg v))

/-- Every jump that a fetch at a multiple of 4 can read has a target that is a multiple of 4 (R202 item 4, U8). -/
def TargetsAligned (prog : List Byte) : Prop :=
  ∀ (k : Nat) (i : Instr) (addrHi addrLo c : Byte), decodeBytes (prog.drop (4 * k)) = .ok i →
    i = .jmp addrHi addrLo c ∨ i = .jmpIfZero addrHi addrLo c → addrLo.toNat % 4 = 0

/-- The failure conditions an instruction has beside its register operands do not hold in `s`: the divisor is not zero
(R103), the data address is at most 8190 (R46), the instruction is implemented (R165). -/
def OperandsAllow (i : Instr) (s : State) : Prop :=
  match i with
  | .nop _ _ _ => True
  | .add _ _ _ => True
  | .mul _ _ _ => True
  | .sub _ _ _ => True
  | .div _ _ src2 => ∀ r : Fin 16, src2.toNat = r.val → s.reg r ≠ 0#16
  | .copy _ _ _ => True
  | .loadimm _ _ _ => True
  | .load _ addrHi addrLo => 256 * addrHi.toNat + addrLo.toNat ≤ 8190
  | .store addrHi addrLo _ => 256 * addrHi.toNat + addrLo.toNat ≤ 8190
  | .eq _ _ _ => True
  | .neq _ _ _ => True
  | .lt _ _ _ => True
  | .lte _ _ _ => True
  | .gt _ _ _ => True
  | .gte _ _ _ => True
  | .jmp _ _ _ => True
  | .jmpIfZero _ _ _ => True
  | .jr _ _ _ => False
  | .jrIfZero _ _ _ => False
  | .and _ _ _ => True
  | .or _ _ _ => True
  | .xor _ _ _ => True
  | .not _ _ _ => True

/-- No failure condition of the instruction's rule holds in `s` (R160, R164). -/
def Succeeds (i : Instr) (s : State) : Prop := i.wf = true ∧ OperandsAllow i s

end Sys2Proof.Machine
end

