-- ==== Sys2Proof/Certificates/Slice0/Obligations.lean ====
section
/-! DEFINITION. What is claimed of the model. Each docstring names the rule of spec/ it formalises. `exec i s` is the
handler of R84: it runs in the state whose pc is already advanced (R83), so "the pc unchanged" here is "the pc stays at the
advanced value". A failure is the next state of R166, with `status = halted f`;
the info beside a failure's name is what the rules write after `raise` (R12, D18, log entry 5). -/

open Sys2Proof Sys2Proof.Machine

/-! ## The instructions, one by one -/

/-- R90: `nop` has no effect whatever its operand bytes; the whole step moves the pc from `p` to `p + 4` and changes nothing
else. -/
def Obligations.NopChangesNothing : Prop :=
  (∀ (a b c : Byte) (s : State), exec (.nop a b c) s = .next s) ∧
  (∀ a b c : Byte, encode (.nop a b c) = ⟨0x00, a, b, c⟩) ∧
  ∀ s : State, s.status = .running → s.prog.length ≤ 65536 → s.pc.toNat + 4 ≤ s.prog.length →
    s.prog[s.pc.toNat]? = some 0x00 → step s = .next (s.setPc (s.pc + 4))

/-- R100: `add`, its failure and its encoding. -/
def Obligations.AddWritesSumModulo65536 : Prop :=
  WritesFromTwo .add (fun v w => (v + w) % 65536) ∧ BadRegisterRaises .add ∧
  ∀ dst src1 src2 : Byte, encode (.add dst src1 src2) = ⟨0x01, dst, src1, src2⟩

/-- R101: `mul`. Its opcode number is the spec's decision D1 (log entry 6). -/
def Obligations.MulWritesLow16BitsOfProduct : Prop :=
  WritesFromTwo .mul (fun v w => (v * w) % 65536) ∧ BadRegisterRaises .mul ∧
  ∀ dst src1 src2 : Byte, encode (.mul dst src1 src2) = ⟨0x02, dst, src1, src2⟩

/-- R102: `sub`, `src1` minus `src2`, a negative difference plus 65536. Its opcode number is D1 (log entry 6). -/
def Obligations.SubWritesDifferenceModulo65536 : Prop :=
  WritesFromTwo .sub (fun v w => if w ≤ v then v - w else v + 65536 - w) ∧ BadRegisterRaises .sub ∧
  ∀ dst src1 src2 : Byte, encode (.sub dst src1 src2) = ⟨0x03, dst, src1, src2⟩

/-- R103: `div` writes the floor quotient for a non-zero divisor, and raises `DivisionByZero` for a zero one whatever the
dividend; the register operands are checked first (D7, log entry 10). Its opcode number is D1 (log entry 6). -/
def Obligations.DivWritesFloorQuotientOrRaises : Prop :=
  (∀ (dst src1 src2 : Byte) (d r1 r2 : Fin 16) (s : State),
    dst.toNat = d.val → src1.toNat = r1.val → src2.toNat = r2.val → s.reg r2 ≠ 0#16 →
    ∃ t v, exec (.div dst src1 src2) s = .next t ∧ OnlyRegisterWritten s t d v ∧
      v.toNat = (s.reg r1).toNat / (s.reg r2).toNat) ∧
  (∀ (dst src1 src2 : Byte) (d r1 r2 : Fin 16) (s : State),
    dst.toNat = d.val → src1.toNat = r1.val → src2.toNat = r2.val → s.reg r2 = 0#16 →
    ∃ t, exec (.div dst src1 src2) s = .next t ∧ OnlyFailureRaised s t .divisionByZero) ∧
  BadRegisterRaises .div ∧
  ∀ dst src1 src2 : Byte, encode (.div dst src1 src2) = ⟨0x04, dst, src1, src2⟩

/-- R110: `copy`; operand `c` is ignored. Its opcode number is D1 (log entry 6), the order `a` then `b` of the checks D7
(log entry 10). -/
def Obligations.CopyWritesTheSourceWord : Prop :=
  (∀ (dst src c : Byte) (d r : Fin 16) (s : State), dst.toNat = d.val → src.toNat = r.val →
    ∃ t, exec (.copy dst src c) s = .next t ∧ OnlyRegisterWritten s t d (s.reg r)) ∧
  (∀ (dst src c : Byte) (s : State), 16 ≤ dst.toNat → ∃ t, exec (.copy dst src c) s = .next t ∧
    OnlyFailureRaised s t (.outOfRangeAccess (.reg dst))) ∧
  (∀ (dst src c : Byte) (s : State), dst.toNat < 16 → 16 ≤ src.toNat → ∃ t, exec (.copy dst src c) s = .next t ∧
    OnlyFailureRaised s t (.outOfRangeAccess (.reg src))) ∧
  ∀ dst src c : Byte, encode (.copy dst src c) = ⟨0x05, dst, src, c⟩

/-- R111: `loadimm`, for all 256 values of `hi` and of `lo`. -/
def Obligations.LoadimmWritesTheImmediate : Prop :=
  (∀ (dst hi lo : Byte) (d : Fin 16) (s : State), dst.toNat = d.val →
    ∃ t v, exec (.loadimm dst hi lo) s = .next t ∧ OnlyRegisterWritten s t d v ∧
      v.toNat = 256 * hi.toNat + lo.toNat) ∧
  (∀ (dst hi lo : Byte) (s : State), 16 ≤ dst.toNat → ∃ t, exec (.loadimm dst hi lo) s = .next t ∧
    OnlyFailureRaised s t (.outOfRangeAccess (.reg dst))) ∧
  ∀ dst hi lo : Byte, encode (.loadimm dst hi lo) = ⟨0x06, dst, hi, lo⟩

/-- R120, R122: `load` reads bytes `addr` and `addr + 1`, the first one high, for every `addr` up to 8190, odd or even; from
8191 on it raises, after the check of the register operand. The address formula is 91 N3 (log entry 19), the opcode number
D1 (log entry 6), the order of the checks D7 (log entry 10). -/
def Obligations.LoadReadsTheBigEndianWord : Prop :=
  (∀ (dst addrHi addrLo : Byte) (d : Fin 16) (s : State), dst.toNat = d.val →
    256 * addrHi.toNat + addrLo.toNat ≤ 8190 →
    ∃ t v, exec (.load dst addrHi addrLo) s = .next t ∧ OnlyRegisterWritten s t d v ∧
      v.toNat = 256 * (s.byte (256 * addrHi.toNat + addrLo.toNat)).toNat +
        (s.byte (256 * addrHi.toNat + addrLo.toNat + 1)).toNat) ∧
  (∀ (dst addrHi addrLo : Byte) (s : State), dst.toNat < 16 → 8191 ≤ 256 * addrHi.toNat + addrLo.toNat →
    ∃ t, exec (.load dst addrHi addrLo) s = .next t ∧
      OnlyFailureRaised s t (.outOfRangeAccess (.mem (word16 addrHi addrLo)))) ∧
  (∀ (dst addrHi addrLo : Byte) (s : State), 16 ≤ dst.toNat → ∃ t, exec (.load dst addrHi addrLo) s = .next t ∧
    OnlyFailureRaised s t (.outOfRangeAccess (.reg dst))) ∧
  ∀ dst addrHi addrLo : Byte, encode (.load dst addrHi addrLo) = ⟨0x07, dst, addrHi, addrLo⟩

/-- R121, R122: `store` writes bytes `addr` and `addr + 1`, the high byte first, where `addr = word16 addrHi addrLo`, and
every other byte of memory, every register and the pc stay as they were; from 8191 on no byte is written (D9, log
entry 12). The address formula is 91 N3 (log entry 19), the opcode number D1 (log entry 6), the order of the checks D7 (log
entry 10). The memory is in its canonical form, which `StepKeepsTheInvariant` keeps. -/
def Obligations.StoreWritesTheBigEndianWord : Prop :=
  (∀ addrHi addrLo : Byte, (word16 addrHi addrLo).toNat = 256 * addrHi.toNat + addrLo.toNat) ∧
  (∀ (addrHi addrLo src : Byte) (r : Fin 16) (s : State), s.mem.wf → src.toNat = r.val →
    (word16 addrHi addrLo).toNat ≤ 8190 →
    ∃ t, exec (.store addrHi addrLo src) s = .next t ∧
      (t.byte (word16 addrHi addrLo).toNat).toNat = (s.reg r).toNat / 256 ∧
      (t.byte ((word16 addrHi addrLo).toNat + 1)).toNat = (s.reg r).toNat % 256 ∧
      (∀ a, a ≠ (word16 addrHi addrLo).toNat → a ≠ (word16 addrHi addrLo).toNat + 1 → t.byte a = s.byte a) ∧
      SameRegs s t ∧ t.pc = s.pc ∧ t.status = s.status ∧ SameParams s t) ∧
  (∀ (addrHi addrLo src : Byte) (s : State), src.toNat < 16 → 8191 ≤ (word16 addrHi addrLo).toNat →
    ∃ t, exec (.store addrHi addrLo src) s = .next t ∧
      OnlyFailureRaised s t (.outOfRangeAccess (.mem (word16 addrHi addrLo)))) ∧
  (∀ (addrHi addrLo src : Byte) (s : State), 16 ≤ src.toNat → ∃ t, exec (.store addrHi addrLo src) s = .next t ∧
    OnlyFailureRaised s t (.outOfRangeAccess (.reg src))) ∧
  ∀ addrHi addrLo src : Byte, encode (.store addrHi addrLo src) = ⟨0x08, addrHi, addrLo, src⟩

/-- R130 to R134, R136: `eq`, `neq`, `lt`, `lte`, `gt` write the whole word 1 or 0, by the relation on the unsigned values
with `src1` on the left (D15, log entry 15). The opcode numbers are D1 (log entry 6). -/
def Obligations.ComparisonsWriteOneOrZero : Prop :=
  WritesFromTwo .eq (fun v w => if v = w then 1 else 0) ∧
  WritesFromTwo .neq (fun v w => if v ≠ w then 1 else 0) ∧
  WritesFromTwo .lt (fun v w => if v < w then 1 else 0) ∧
  WritesFromTwo .lte (fun v w => if v ≤ w then 1 else 0) ∧
  WritesFromTwo .gt (fun v w => if w < v then 1 else 0) ∧
  BadRegisterRaises .eq ∧ BadRegisterRaises .neq ∧ BadRegisterRaises .lt ∧ BadRegisterRaises .lte ∧
  BadRegisterRaises .gt ∧
  ∀ dst src1 src2 : Byte,
    encode (.eq dst src1 src2) = ⟨0x09, dst, src1, src2⟩ ∧ encode (.neq dst src1 src2) = ⟨0x0A, dst, src1, src2⟩ ∧
    encode (.lt dst src1 src2) = ⟨0x0B, dst, src1, src2⟩ ∧ encode (.lte dst src1 src2) = ⟨0x0C, dst, src1, src2⟩ ∧
    encode (.gt dst src1 src2) = ⟨0x0D, dst, src1, src2⟩

/-- R135: with `GTE_CORRECTED = false` `gte` does exactly what `lt` does; with `true` it writes 1 exactly when `src1` is
greater than or equal to `src2` (D2, log entry 2). Its opcode number is D1 (log entry 6). -/
def Obligations.GteIsLtUnlessCorrected : Prop :=
  (∀ (dst src1 src2 : Byte) (s : State), s.gteCorrected = false →
    exec (.gte dst src1 src2) s = exec (.lt dst src1 src2) s) ∧
  (∀ (dst src1 src2 : Byte) (d r1 r2 : Fin 16) (s : State),
    dst.toNat = d.val → src1.toNat = r1.val → src2.toNat = r2.val →
    ∃ t v, exec (.gte dst src1 src2) s = .next t ∧ OnlyRegisterWritten s t d v ∧
      (s.gteCorrected = false → v.toNat = if (s.reg r1).toNat < (s.reg r2).toNat then 1 else 0) ∧
      (s.gteCorrected = true → v.toNat = if (s.reg r2).toNat ≤ (s.reg r1).toNat then 1 else 0)) ∧
  BadRegisterRaises .gte ∧
  ∀ dst src1 src2 : Byte, encode (.gte dst src1 src2) = ⟨0x0E, dst, src1, src2⟩

/-- R140, R144: `jmp` completes in every state, for every target and every ignored byte, and writes the pc only. The target
formula is 91 N3 (log entry 19), the opcode number D1 (log entry 6). -/
def Obligations.JmpWritesTheAbsoluteTarget : Prop :=
  (∀ (addrHi addrLo c : Byte) (s : State),
    ∃ t v, exec (.jmp addrHi addrLo c) s = .next t ∧ OnlyPcWritten s t v ∧
      v.toNat = 256 * addrHi.toNat + addrLo.toNat) ∧
  ∀ addrHi addrLo c : Byte, encode (.jmp addrHi addrLo c) = ⟨0x0F, addrHi, addrLo, c⟩

/-- R141: `jmpIfZero` writes the target to the pc if the whole word is 0 and changes nothing otherwise; its register operand
is checked whether or not the jump would be taken. The target formula is 91 N3 (log entry 19), the opcode number D1 (log
entry 6). -/
def Obligations.JmpIfZeroTestsTheWholeWord : Prop :=
  (∀ (addrHi addrLo src : Byte) (r : Fin 16) (s : State), src.toNat = r.val → s.reg r = 0#16 →
    ∃ t v, exec (.jmpIfZero addrHi addrLo src) s = .next t ∧ OnlyPcWritten s t v ∧
      v.toNat = 256 * addrHi.toNat + addrLo.toNat) ∧
  (∀ (addrHi addrLo src : Byte) (r : Fin 16) (s : State), src.toNat = r.val → s.reg r ≠ 0#16 →
    exec (.jmpIfZero addrHi addrLo src) s = .next s) ∧
  (∀ (addrHi addrLo src : Byte) (s : State), 16 ≤ src.toNat →
    ∃ t, exec (.jmpIfZero addrHi addrLo src) s = .next t ∧
      OnlyFailureRaised s t (.outOfRangeAccess (.reg src))) ∧
  ∀ addrHi addrLo src : Byte, encode (.jmpIfZero addrHi addrLo src) = ⟨0x10, addrHi, addrLo, src⟩

/-- R142, R143, R165: `jr` and `jrIfZero` raise `NotImplemented` in every state, whatever their operand bytes and whatever
the registers hold, and write nothing but the status (D3, log entry 7). The opcode numbers are D1 (log entry 6). -/
def Obligations.JrAndJrIfZeroRaiseNotImplemented : Prop :=
  (∀ (a b c : Byte) (s : State),
    (∃ t, exec (.jr a b c) s = .next t ∧ OnlyFailureRaised s t (.notImplemented 17)) ∧
    ∃ t, exec (.jrIfZero a b c) s = .next t ∧ OnlyFailureRaised s t (.notImplemented 18)) ∧
  ∀ a b c : Byte, encode (.jr a b c) = ⟨0x11, a, b, c⟩ ∧ encode (.jrIfZero a b c) = ⟨0x12, a, b, c⟩

/-- R154 with R150 to R153: each of the 16 result bits is the Boolean function of the source bits at the same position, and
nothing but the destination changes; an operand in a register role above 15 raises, `a` before `b` before `c`, and nothing is
written. -/
def Obligations.BitwiseWorkBitByBit : Prop :=
  (∀ (dst src1 src2 : Byte) (d r1 r2 : Fin 16) (s : State),
    dst.toNat = d.val → src1.toNat = r1.val → src2.toNat = r2.val →
    (∃ t v, exec (.and dst src1 src2) s = .next t ∧ OnlyRegisterWritten s t d v ∧
      ∀ k, k < 16 → v.getLsbD k = ((s.reg r1).getLsbD k && (s.reg r2).getLsbD k)) ∧
    (∃ t v, exec (.or dst src1 src2) s = .next t ∧ OnlyRegisterWritten s t d v ∧
      ∀ k, k < 16 → v.getLsbD k = ((s.reg r1).getLsbD k || (s.reg r2).getLsbD k)) ∧
    ∃ t v, exec (.xor dst src1 src2) s = .next t ∧ OnlyRegisterWritten s t d v ∧
      ∀ k, k < 16 → v.getLsbD k = ((s.reg r1).getLsbD k ^^ (s.reg r2).getLsbD k)) ∧
  (∀ (dst src c : Byte) (d r : Fin 16) (s : State), dst.toNat = d.val → src.toNat = r.val →
    ∃ t v, exec (.not dst src c) s = .next t ∧ OnlyRegisterWritten s t d v ∧
      v.toNat = 65535 - (s.reg r).toNat ∧ ∀ k, k < 16 → v.getLsbD k = !(s.reg r).getLsbD k) ∧
  ∀ (i : Instr) (dst src1 src2 v : Byte) (s : State),
    i = .and dst src1 src2 ∨ i = .or dst src1 src2 ∨ i = .xor dst src1 src2 ∨ i = .not dst src1 src2 →
    i.firstBadReg = some v →
    ∃ t, exec i s = .next t ∧ OnlyFailureRaised s t (.outOfRangeAccess (.reg v))

/-! ## State: reset, registers, memory -/

/-- R32: what reset leaves, for every stream handed over, and for `State.reset`. -/
def Obligations.ResetLeavesZeros : Prop :=
  (∀ prog : List Byte, AsResetLeavesIt (State.construct prog)) ∧ AsResetLeavesIt State.reset

/-- R190, R199, D20 (log entry 17): reset from any state, running or halted, discards everything. That the parameter
`GTE_CORRECTED` stays is the model's reading of R7 (log entry 2). -/
def Obligations.ResetDiscardsEverything : Prop :=
  ∀ (prog : List Byte) (s : State),
    (∀ r, (applyReset prog s).reg r = 0#16) ∧ (∀ k, (applyReset prog s).byte k = 0#8) ∧
    (applyReset prog s).pc = 0#16 ∧ (applyReset prog s).status = .running ∧ (applyReset prog s).prog = prog ∧
    (applyReset prog s).gteCorrected = s.gteCorrected

/-- The model's own (log entries 2 and 3): the state after reset meets the invariant, with the empty stream and the default
of `GTE_CORRECTED`; so does a reset that hands over any stream of at most 65536 bytes. -/
def Obligations.ResetMeetsTheInvariant : Prop :=
  StateInv State.reset ∧ State.reset = State.construct [] ∧ State.reset.gteCorrected = false ∧
  ∀ prog : List Byte, prog.length ≤ 65536 → StateInv (State.construct prog)

/-- R21: no register is hardwired, register 0 included: a write to it is kept and a read returns what was written; a write to
one changes no other; and no register aliases the pc. -/
def Obligations.RegistersAreIndependent : Prop :=
  ∀ (s : State) (d r : Fin 16) (v : Word), (s.setReg d v).reg r = (if r = d then v else s.reg r) ∧
    (s.setReg d v).pc = s.pc ∧ (s.setPc v).reg r = s.reg r

/-- R44: the 2-byte read. The sum is not reduced: at address 65535 it is 65536. A read changes no state (`memRead` answers a
word and no state). -/
def Obligations.MemReadIsBigEndianAndBounded : Prop :=
  ∀ (s : State) (addr : Word),
    (8191 < addr.toNat + 1 → memRead s addr = .error (.outOfRangeAccess (.mem addr))) ∧
    (addr.toNat + 1 ≤ 8191 → ∃ v, memRead s addr = .ok v ∧
      v.toNat = 256 * (s.byte addr.toNat).toNat + (s.byte (addr.toNat + 1)).toNat)

/-- R48: a `load` right after a `store` to the same address returns the stored word, for every address up to 8190 and
wherever the pc stands between the two. -/
def Obligations.StoreThenLoadReturnsTheWord : Prop :=
  ∀ (addrHi addrLo src dst : Byte) (r d : Fin 16) (q : Word) (s : State), s.mem.wf →
    src.toNat = r.val → dst.toNat = d.val → 256 * addrHi.toNat + addrLo.toNat ≤ 8190 →
    ∃ t u, exec (.store addrHi addrLo src) s = .next t ∧ exec (.load dst addrHi addrLo) (t.setPc q) = .next u ∧
      u.reg d = s.reg r

/-- R40, R121: of two stores at `addr` and `addr + 1`, in either order, the later wins for the byte they share, which is the
low byte of the one at `addr` and the high byte of the one at `addr + 1`. The store at `addr` first: a `load` at `addr` then
reads the high byte of each. The store at `addr + 1` first: a `load` at `addr + 1` then reads the low byte of each. The pc may
stand anywhere between the instructions. The address formula is 91 N3 (log entry 19). -/
def Obligations.OverlappingStoresShareOneByte : Prop :=
  ∀ (hi1 lo1 hi2 lo2 src1 src2 dst : Byte) (r1 r2 d : Fin 16) (p q : Word) (s : State), s.mem.wf →
    src1.toNat = r1.val → src2.toNat = r2.val → dst.toNat = d.val →
    256 * hi2.toNat + lo2.toNat = 256 * hi1.toNat + lo1.toNat + 1 → 256 * hi2.toNat + lo2.toNat ≤ 8190 →
    (∃ t u w, exec (.store hi1 lo1 src1) s = .next t ∧ exec (.store hi2 lo2 src2) (t.setPc p) = .next u ∧
      exec (.load dst hi1 lo1) (u.setPc q) = .next w ∧
      (w.reg d).toNat = 256 * ((s.reg r1).toNat / 256) + (s.reg r2).toNat / 256) ∧
    ∃ t u w, exec (.store hi2 lo2 src2) s = .next t ∧ exec (.store hi1 lo1 src1) (t.setPc p) = .next u ∧
      exec (.load dst hi2 lo2) (u.setPc q) = .next w ∧
      (w.reg d).toNat = 256 * ((s.reg r1).toNat % 256) + (s.reg r2).toNat % 256

/-- The model's own (the canonical form of memory, 10_state.md R26 and R28): two memories in canonical form that read the
same at every address are the same data. -/
def Obligations.CanonicalMemoryIsUnique : Prop :=
  ∀ m n : Memory, m.wf → n.wf → (∀ a, m.byte a = n.byte a) → m = n

/-! ## All handlers at once -/

/-- R22, R26, R29, R24, R166, for every instruction in every state: the handler completes with a next state in which only the
register named by the destination operand can differ, only the two bytes a `store` addresses can differ, only `jmp` and
`jmpIfZero` can have written the pc, and the parameters are as before; if it fails, only the status differs. -/
def Obligations.HandlersWriteOnlyTheirDestination : Prop :=
  ∀ (i : Instr) (s : State), s.mem.wf → ∃ t, exec i s = .next t ∧
    (∀ r : Fin 16, (∀ dst, i.dstOperand = some dst → dst.toNat ≠ r.val) → t.reg r = s.reg r) ∧
    (∀ a, (∀ addrHi addrLo src, i = .store addrHi addrLo src →
        a ≠ (word16 addrHi addrLo).toNat ∧ a ≠ (word16 addrHi addrLo).toNat + 1) → t.byte a = s.byte a) ∧
    ((∀ addrHi addrLo c, i ≠ .jmp addrHi addrLo c ∧ i ≠ .jmpIfZero addrHi addrLo c) → t.pc = s.pc) ∧
    SameParams s t ∧
    (∀ f, s.status = .running → t.status = .halted f → t = s.raise f)

/-- R84, R160, R164: a handler of a running unit succeeds exactly when none of the failure conditions of its rule holds, and
otherwise halts the unit. -/
def Obligations.HandlerSucceedsExactlyWhenAllowed : Prop :=
  ∀ (i : Instr) (s : State), s.status = .running →
    ∃ t, exec i s = .next t ∧ (t.status = .running ↔ Succeeds i s)

/-- R168 item 4 and R164 (the order is D7, log entry 10): the first operand in a register role above 15, in the order `a`,
`b`, `c`, decides the failure, before the divisor and before the address; and a register failure is reported for no other
reason. -/
def Obligations.FirstBadRegisterOperandDecides : Prop :=
  ∀ (i : Instr) (s : State),
    (∀ v, i.firstBadReg = some v → exec i s = .next (s.raise (.outOfRangeAccess (.reg v)))) ∧
    (∀ v t, s.status = .running → exec i s = .next t → t.status = .halted (.outOfRangeAccess (.reg v)) →
      i.firstBadReg = some v)

/-- R68, R90, R110, R140, R142, R143, R153 (D14, log entry 14): an ignored operand byte changes nothing. -/
def Obligations.IgnoredOperandsChangeNothing : Prop :=
  ∀ (i : Instr) (s : State), exec i s = exec i.canonical s

/-- R22, R63: a register that is no source operand is not read. Two states that differ only in such a register `r` take the
same step, but for that register; and `r` itself either keeps what it held in each, or is written with one and the same word
in both (when it is the destination). -/
def Obligations.OnlySourceRegistersAreRead : Prop :=
  ∀ (i : Instr) (s t u : State) (r : Fin 16) (v : Word), (∀ b ∈ i.srcOperands, b.toNat ≠ r.val) →
    exec i s = .next t → exec i (s.setReg r v) = .next u →
    (∀ q, q ≠ r → u.reg q = t.reg q) ∧ ((t.reg r = s.reg r ∧ u.reg r = v) ∨ u.reg r = t.reg r) ∧
    u.pc = t.pc ∧ u.mem = t.mem ∧ u.status = t.status ∧ SameParams t u

/-- R26, R47: only `load` reads the data memory. Two states that differ only in memory (each in its canonical form, which
`StepKeepsTheInvariant` keeps) take the same step on every other instruction, but for the memory; and each keeps its own
memory, or the instruction is a `store`, which writes the same two bytes in both and leaves every other byte of each. -/
def Obligations.OnlyLoadReadsMemory : Prop :=
  ∀ (i : Instr) (s t u : State) (m : Memory), s.mem.wf → m.wf → (∀ dst addrHi addrLo, i ≠ .load dst addrHi addrLo) →
    exec i s = .next t → exec i (s.setMem m) = .next u →
    SameRegs t u ∧ u.pc = t.pc ∧ u.status = t.status ∧ SameParams t u ∧
    ((t.mem = s.mem ∧ u.mem = m) ∨
      ∃ addrHi addrLo src, i = .store addrHi addrLo src ∧
        u.byte (word16 addrHi addrLo).toNat = t.byte (word16 addrHi addrLo).toNat ∧
        u.byte ((word16 addrHi addrLo).toNat + 1) = t.byte ((word16 addrHi addrLo).toNat + 1) ∧
        ∀ a, a ≠ (word16 addrHi addrLo).toNat → a ≠ (word16 addrHi addrLo).toNat + 1 →
          t.byte a = s.byte a ∧ u.byte a = m.byte a)

/-- R7, R135: `GTE_CORRECTED` selects what `gte` computes and plays no part in any other instruction. -/
def Obligations.GteCorrectedSelectsOnlyGte : Prop :=
  ∀ (i : Instr) (s t u : State) (g : Bool), (∀ dst src1 src2, i ≠ .gte dst src1 src2) →
    exec i s = .next t → exec i { s with gteCorrected := g } = .next u → u = { t with gteCorrected := g }

/-- R24: while a handler runs the pc is `p + 4`; no instruction reads it; only `jmp` and `jmpIfZero` write it; and after each
step, but for the one that ends the run because nothing can be fetched, it holds the explicit target of such an instruction
or `p + 4`. -/
def Obligations.PcIsAdvancedAndOnlyJumpsWriteIt : Prop :=
  (∀ (s : State) (w : InstrBytes) (i : Instr), s.status = .running → s.prog.length ≤ 65536 → fetch s = .ok w →
    decode w = .ok i → ∃ u, u.pc = s.pc + 4 ∧ step s = exec i u) ∧
  (∀ (i : Instr) (s t u : State) (q : Word), exec i s = .next t → exec i (s.setPc q) = .next u →
    u = t.setPc u.pc ∧ ((t.pc = s.pc ∧ u.pc = q) ∨
      ∃ addrHi addrLo c, (i = .jmp addrHi addrLo c ∨ i = .jmpIfZero addrHi addrLo c) ∧
        t.pc = word16 addrHi addrLo ∧ u.pc = word16 addrHi addrLo)) ∧
  ∀ s t : State, step s = .next t → t.status ≠ .halted .endOfProgram →
    t.pc = s.pc + 4 ∨ ∃ w addrHi addrLo c, fetch s = .ok w ∧
      (decode w = .ok (.jmp addrHi addrLo c) ∨ decode w = .ok (.jmpIfZero addrHi addrLo c)) ∧
      t.pc = word16 addrHi addrLo

/-- R52: the stream is a separate, immutable space. Fetch sees the stream and the pc only, so no store is ever seen by it:
whatever the memory, the same bytes are fetched. No step writes the stream; `store` writes `mem` only, or raises; no
handler's result depends on the stream, so a program cannot read its own bytes as data; and memory starts all zero whatever
the stream. -/
def Obligations.StreamIsNeverWrittenOrReadAsData : Prop :=
  (∀ s u : State, u.prog = s.prog → u.pc = s.pc → fetch u = fetch s) ∧
  (∀ (s : State) (m : Memory), fetch (s.setMem m) = fetch s) ∧
  (∀ (addrHi addrLo src : Byte) (s t : State), exec (.store addrHi addrLo src) s = .next t →
    fetch t = fetch s ∧ ((∃ m, t = s.setMem m) ∨ ∃ f, t = s.raise f)) ∧
  (∀ s t : State, step s = .next t → t.prog = s.prog) ∧
  (∀ (i : Instr) (s t u : State) (p : List Byte), exec i s = .next t → exec i { s with prog := p } = .next u →
    u = { t with prog := p }) ∧
  ∀ (p : List Byte) (a : Nat), (State.construct p).byte a = 0

/-! ## Encoding -/

/-- R60, R61, R63: decoding an encoded instruction gives it back, every operand byte at every value. -/
def Obligations.DecodeOfEncodeIsTheInstruction : Prop :=
  ∀ i : Instr, decode (encode i) = .ok i

/-- R61, R62: encoding a decoded instruction gives its four bytes back: no two words decode to the same instruction. -/
def Obligations.EncodeOfDecodeIsTheBytes : Prop :=
  ∀ (w : InstrBytes) (i : Instr), decode w = .ok i → encode i = w

/-- R62, R69: decoding looks at the opcode byte alone: below 23 it selects one mnemonic, the same for all operand bytes, which
only fill that mnemonic's operands; and exactly 23 to 255 are rejected. -/
def Obligations.DecodeRejectsExactlyOpcodesFrom23 : Prop :=
  (∀ w : InstrBytes, 23 ≤ w.op.toNat → decode w = .error (.invalidOpcode w.op)) ∧
  ∀ op : Byte, op.toNat < 23 → ∃ m : Mnemonic, ∀ a b c : Byte, decode ⟨op, a, b, c⟩ = .ok (m.build a b c)

/-- R64: the opcode byte of each instruction. The numbers 0, 1 and 6 are shown by the source; the others are the spec's
decision D1 (log entry 6). -/
def Obligations.OpcodeNumbersFollowTheTable : Prop :=
  ∀ a b c : Byte,
    [Instr.nop a b c, .add a b c, .mul a b c, .sub a b c, .div a b c, .copy a b c, .loadimm a b c, .load a b c,
      .store a b c, .eq a b c, .neq a b c, .lt a b c, .lte a b c, .gt a b c, .gte a b c, .jmp a b c, .jmpIfZero a b c,
      .jr a b c, .jrIfZero a b c, .and a b c, .or a b c, .xor a b c, .not a b c].map encode =
    [⟨0, a, b, c⟩, ⟨1, a, b, c⟩, ⟨2, a, b, c⟩, ⟨3, a, b, c⟩, ⟨4, a, b, c⟩, ⟨5, a, b, c⟩, ⟨6, a, b, c⟩, ⟨7, a, b, c⟩,
      ⟨8, a, b, c⟩, ⟨9, a, b, c⟩, ⟨10, a, b, c⟩, ⟨11, a, b, c⟩, ⟨12, a, b, c⟩, ⟨13, a, b, c⟩, ⟨14, a, b, c⟩,
      ⟨15, a, b, c⟩, ⟨16, a, b, c⟩, ⟨17, a, b, c⟩, ⟨18, a, b, c⟩, ⟨19, a, b, c⟩, ⟨20, a, b, c⟩, ⟨21, a, b, c⟩,
      ⟨22, a, b, c⟩]

/-- Words written out from the spec's encodings (95_test_vectors.md P1, P3, P4, P6) decode to the instruction they stand for,
one of each family. The numbers 00, 01 and 06 (R64) are shown by the source; 08, 0D, 10 and 15 are the spec's decision D1 (log
entry 6). -/
def Obligations.WordsOfTheSpecDecode : Prop :=
  decode ⟨0x00, 0x00, 0x00, 0x00⟩ = .ok (.nop 0 0 0) ∧
  decode ⟨0x01, 0x02, 0x00, 0x01⟩ = .ok (.add 2 0 1) ∧
  decode ⟨0x06, 0x00, 0xAB, 0xCD⟩ = .ok (.loadimm 0 0xAB 0xCD) ∧
  decode ⟨0x08, 0x1F, 0xFE, 0x00⟩ = .ok (.store 0x1F 0xFE 0) ∧
  decode ⟨0x0D, 0x02, 0x00, 0x01⟩ = .ok (.gt 2 0 1) ∧
  decode ⟨0x10, 0x00, 0x18, 0x02⟩ = .ok (.jmpIfZero 0x00 0x18 2) ∧
  decode ⟨0x15, 0x07, 0x00, 0x01⟩ = .ok (.xor 7 0 1)

/-- R60, R61: a whole program is read back from the byte sequence of its encodings, instruction by instruction. -/
def Obligations.ProgramsReadBackFromTheirBytes : Prop :=
  ∀ is : List Instr, decodeProgram (encodeProgram is) = .ok is

/-- R60, R61, R80, R81: when the stream is a program's encodings, the step at offset `4 * k` runs the program's instruction
`k` and no other, with the pc advanced; and after its last instruction the step ends the run. -/
def Obligations.StepRunsTheProgramsInstruction : Prop :=
  ∀ (is : List Instr) (s : State), s.status = .running → s.prog = encodeProgram is → 4 * is.length ≤ 65536 →
    (∀ (k : Nat) (i : Instr), is[k]? = some i → s.pc.toNat = 4 * k → step s = exec i (s.setPc (s.pc + 4))) ∧
    (s.pc.toNat = 4 * is.length → step s = .next (s.raise .endOfProgram))

/-- The host's interface (log entry 3): whatever the state, `withFetchWord` makes the next step run the instruction the
decoder reads from the word, in the same registers and memory, with the pc advanced past it. -/
def Obligations.WithFetchWordRunsTheWord : Prop :=
  ∀ (s : State) (nbits w : Nat) (i : Instr), decodeTableWord nbits w = some i →
    ∃ u, step (s.withFetchWord nbits w) = exec i u ∧ u.regs = s.regs ∧ u.mem = s.mem ∧
      u.gteCorrected = s.gteCorrected ∧ u.status = .running ∧ u.pc = (s.withFetchWord nbits w).pc + 4 ∧
      (s.pc.toNat + 4 ≤ 65536 → (s.withFetchWord nbits w).pc = s.pc)

/-! ## The step and the run -/

/-- R80, R82, R83, R84: when the four bytes at the pc decode to an instruction, the step is its handler in the state whose pc
is advanced. The bound on `LEN` is D4 (log entry 4). -/
def Obligations.StepRunsTheDecodedInstruction : Prop :=
  ∀ (s : State) (w : InstrBytes) (i : Instr), s.status = .running → s.prog.length ≤ 65536 →
    s.pc.toNat + 4 ≤ s.prog.length →
    s.prog[s.pc.toNat]? = some w.op → s.prog[s.pc.toNat + 1]? = some w.a → s.prog[s.pc.toNat + 2]? = some w.b →
    s.prog[s.pc.toNat + 3]? = some w.c → decode w = .ok i → step s = exec i (s.setPc (s.pc + 4))

/-- R81, R161: the end-of-stream test, the sum not reduced (D4, log entry 4): nothing is written but the status. -/
def Obligations.StepPastTheStreamEndsTheRun : Prop :=
  ∀ s : State, s.status = .running → s.prog.length ≤ 65536 → s.prog.length < s.pc.toNat + 4 →
    step s = .next (s.raise .endOfProgram)

/-- R69, R162: an opcode byte of 23 or above raises `InvalidOpcode` with the pc advanced, whatever the operands. -/
def Obligations.StepOnInvalidOpcodeRaises : Prop :=
  ∀ (s : State) (op : Byte), s.status = .running → s.prog.length ≤ 65536 → s.pc.toNat + 4 ≤ s.prog.length →
    s.prog[s.pc.toNat]? = some op → 23 ≤ op.toNat →
    step s = .next ((s.setPc (s.pc + 4)).raise (.invalidOpcode op))

/-- R89, R172: a halted unit takes no step. That the model says so with a fault is log entry 1. -/
def Obligations.HaltedUnitTakesNoStep : Prop :=
  ∀ (s : State) (f : Failure), s.status = .halted f → step s = .fault (.halted f)

/-- D4, U10 (log entry 4): a stream of more than 65536 bytes is refused. -/
def Obligations.TooLongStreamIsRefused : Prop :=
  ∀ s : State, s.status = .running → 65536 < s.prog.length → step s = .refused .streamTooLong

/-- 93_implementation_defined.md section 2 ("a running unit always has a step"): with a stream the spec allows, a running
unit's step answers a next state. -/
def Obligations.RunningUnitAlwaysHasAStep : Prop :=
  ∀ s : State, s.status = .running → s.prog.length ≤ 65536 → ∃ t, step s = .next t

/-- R166, R167 (D8, log entry 11): a step that halts the unit changes the status, and the pc to the advanced value unless the
failure is `EndOfProgram`; nothing else, and in particular no byte and no register. -/
def Obligations.FailingStepWritesOnlyStatusAndPc : Prop :=
  ∀ (s t : State) (f : Failure), step s = .next t → t.status = .halted f →
    t = if f = .endOfProgram then s.raise f else (s.setPc (s.pc + 4)).raise f

/-- R26, R8: every step keeps the canonical form of the memory and the bound on the stream, from every state that has
them. -/
def Obligations.StepKeepsTheInvariant : Prop :=
  ∀ s t : State, StateInv s → step s = .next t → StateInv t

/-- R25, U8, R202 item 4: where every jump target in the stream is a multiple of 4, a pc that is a multiple of 4 stays one. -/
def Obligations.StepKeepsThePcAligned : Prop :=
  ∀ s t : State, TargetsAligned s.prog → s.pc.toNat % 4 = 0 → step s = .next t →
    TargetsAligned t.prog ∧ t.pc.toNat % 4 = 0

/-- R87, R88: from a state that meets the invariant the run loop, for every amount of fuel, is never stuck: it answers a
state that meets the invariant, with the parameters unchanged. -/
def Obligations.RunLoopIsNeverStuck : Prop :=
  ∀ (n : Nat) (s : State), StateInv s → ∃ t, runLoop n s = .next t ∧ StateInv t ∧ SameParams s t

/-- R88, R89, U16: once the run has halted, more fuel changes nothing; and a run that is still running when the fuel ends has
taken exactly that many steps: the loop with one step more is the next step from there. -/
def Obligations.RunLoopHaltIsFinal : Prop :=
  ∀ (n : Nat) (s t : State), runLoop n s = .next t →
    (∀ f, t.status = .halted f → ∀ k, runLoop (n + k) s = .next t) ∧
    (t.status = .running → runLoop (n + 1) s = step t)

/-- R196 (D10, log entry 13): the observer port shows the pc and the 16 registers after every successful step, and only
then. -/
def Obligations.ObserverPortShowsSuccessfulSteps : Prop :=
  ∀ s : State,
    (∀ t, step s = .next t → t.status = .running → observerPort s = some (t.pc, t.regs)) ∧
    (∀ t f, step s = .next t → t.status = .halted f → observerPort s = none) ∧
    (∀ f, s.status = .halted f → observerPort s = none)

/-- R160, R197 (D13, log entry 13): the codes on the status port. -/
def Obligations.StatusPortCodes : Prop :=
  ∀ s : State,
    (s.status = .running → statusPort s = 0) ∧
    (s.status = .halted .endOfProgram → statusPort s = 1) ∧
    (∀ op, s.status = .halted (.invalidOpcode op) → statusPort s = 2) ∧
    (s.status = .halted .divisionByZero → statusPort s = 3) ∧
    (∀ r, s.status = .halted (.outOfRangeAccess r) → statusPort s = 4) ∧
    (∀ op, s.status = .halted (.notImplemented op) → statusPort s = 5)
end

