-- ==== Sys2Proof/Laws/State.lean ====
section
/-! SUPPORT. One lemma per field per update of `State`, so that no proof unfolds a record update. -/

namespace Sys2Proof.Machine

variable (s : State)

/-! ## `setReg` -/

@[simp] theorem State.setReg_pc (i : Fin 16) (v : Word) : (s.setReg i v).pc = s.pc := rfl
@[simp] theorem State.setReg_mem (i : Fin 16) (v : Word) : (s.setReg i v).mem = s.mem := rfl
@[simp] theorem State.setReg_byte (i : Fin 16) (v : Word) (a : Nat) : (s.setReg i v).byte a = s.byte a := rfl
@[simp] theorem State.setReg_status (i : Fin 16) (v : Word) : (s.setReg i v).status = s.status := rfl
@[simp] theorem State.setReg_prog (i : Fin 16) (v : Word) : (s.setReg i v).prog = s.prog := rfl
@[simp] theorem State.setReg_gteCorrected (i : Fin 16) (v : Word) :
    (s.setReg i v).gteCorrected = s.gteCorrected := rfl

/-- Reading any register after a write. -/
theorem State.reg_setReg (i r : Fin 16) (v : Word) : (s.setReg i v).reg r = if r = i then v else s.reg r := by
  simp [State.reg, State.setReg, Vector.getElem_set, Fin.ext_iff, eq_comm]

@[simp] theorem State.reg_setReg_same (i : Fin 16) (v : Word) : (s.setReg i v).reg i = v := by
  simp [State.reg_setReg]

theorem State.reg_setReg_other {i r : Fin 16} (h : r ≠ i) (v : Word) : (s.setReg i v).reg r = s.reg r := by
  simp [State.reg_setReg, h]

/-! ## `setPc` -/

@[simp] theorem State.setPc_pc (t : Word) : (s.setPc t).pc = t := rfl
@[simp] theorem State.setPc_regs (t : Word) : (s.setPc t).regs = s.regs := rfl
@[simp] theorem State.setPc_reg (t : Word) (r : Fin 16) : (s.setPc t).reg r = s.reg r := rfl
@[simp] theorem State.setPc_mem (t : Word) : (s.setPc t).mem = s.mem := rfl
@[simp] theorem State.setPc_byte (t : Word) (a : Nat) : (s.setPc t).byte a = s.byte a := rfl
@[simp] theorem State.setPc_status (t : Word) : (s.setPc t).status = s.status := rfl
@[simp] theorem State.setPc_prog (t : Word) : (s.setPc t).prog = s.prog := rfl
@[simp] theorem State.setPc_gteCorrected (t : Word) : (s.setPc t).gteCorrected = s.gteCorrected := rfl

/-! ## `setMem` -/

@[simp] theorem State.setMem_mem (m : Memory) : (s.setMem m).mem = m := rfl
@[simp] theorem State.setMem_byte (m : Memory) (a : Nat) : (s.setMem m).byte a = m.byte a := rfl
@[simp] theorem State.setMem_regs (m : Memory) : (s.setMem m).regs = s.regs := rfl
@[simp] theorem State.setMem_reg (m : Memory) (r : Fin 16) : (s.setMem m).reg r = s.reg r := rfl
@[simp] theorem State.setMem_pc (m : Memory) : (s.setMem m).pc = s.pc := rfl
@[simp] theorem State.setMem_status (m : Memory) : (s.setMem m).status = s.status := rfl
@[simp] theorem State.setMem_prog (m : Memory) : (s.setMem m).prog = s.prog := rfl
@[simp] theorem State.setMem_gteCorrected (m : Memory) : (s.setMem m).gteCorrected = s.gteCorrected := rfl

/-! ## `raise` -/

@[simp] theorem State.raise_status (f : Failure) : (s.raise f).status = .halted f := rfl
@[simp] theorem State.raise_regs (f : Failure) : (s.raise f).regs = s.regs := rfl
@[simp] theorem State.raise_reg (f : Failure) (r : Fin 16) : (s.raise f).reg r = s.reg r := rfl
@[simp] theorem State.raise_pc (f : Failure) : (s.raise f).pc = s.pc := rfl
@[simp] theorem State.raise_mem (f : Failure) : (s.raise f).mem = s.mem := rfl
@[simp] theorem State.raise_byte (f : Failure) (a : Nat) : (s.raise f).byte a = s.byte a := rfl
@[simp] theorem State.raise_prog (f : Failure) : (s.raise f).prog = s.prog := rfl
@[simp] theorem State.raise_gteCorrected (f : Failure) : (s.raise f).gteCorrected = s.gteCorrected := rfl

/-! ## `construct` -/

@[simp] theorem State.construct_reg (p : List Byte) (r : Fin 16) : (State.construct p).reg r = 0 := by
  simp [State.construct, State.reg]
@[simp] theorem State.construct_pc (p : List Byte) : (State.construct p).pc = 0 := rfl
@[simp] theorem State.construct_mem (p : List Byte) : (State.construct p).mem = [] := rfl
@[simp] theorem State.construct_byte (p : List Byte) (a : Nat) : (State.construct p).byte a = 0 := rfl
@[simp] theorem State.construct_status (p : List Byte) : (State.construct p).status = .running := rfl
@[simp] theorem State.construct_prog (p : List Byte) : (State.construct p).prog = p := rfl
@[simp] theorem State.construct_gteCorrected (p : List Byte) : (State.construct p).gteCorrected = false := rfl

/-- Two states whose parts read the same are the same state. -/
theorem State.eq_of_parts {s t : State} (hr : ∀ r, t.reg r = s.reg r) (hp : t.pc = s.pc) (hm : t.mem = s.mem)
    (hs : t.status = s.status) (hg : t.prog = s.prog) (hc : t.gteCorrected = s.gteCorrected) : t = s := by
  cases s; cases t
  simp only [State.mk.injEq]
  refine ⟨?_, hp, hm, hs, hg, hc⟩
  exact Vector.ext fun k hk => hr ⟨k, hk⟩

end Sys2Proof.Machine
end

