-- ==== Sys2Proof/Laws/Memory.lean ====
section
/-! SUPPORT. Bytes of a word, and what the data memory's operations do: read after write, and the canonical form. -/

namespace Sys2Proof.Machine

@[simp] theorem memSize_eq : Config.memSize = 8192 := rfl
@[simp] theorem maxStreamLen_eq : Config.maxStreamLen = 65536 := rfl

/-! ## Bytes of a word -/

theorem word16_toNat (hi lo : Byte) : (word16 hi lo).toNat = 256 * hi.toNat + lo.toNat := by
  show (hi ++ lo).toNat = _
  rw [BitVec.toNat_append, ← Nat.shiftLeft_add_eq_or_of_lt lo.isLt, Nat.shiftLeft_eq, Nat.mul_comm]

theorem hiByte_toNat (v : Word) : (hiByte v).toNat = v.toNat / 256 := by
  have h := v.isLt
  simp [hiByte, Nat.shiftRight_eq_div_pow]
  omega

theorem loByte_toNat (v : Word) : (loByte v).toNat = v.toNat % 256 := by
  simp [loByte]

@[simp] theorem word16_hiByte_loByte (v : Word) : word16 (hiByte v) (loByte v) = v := by
  apply BitVec.eq_of_toNat_eq
  rw [word16_toNat, hiByte_toNat, loByte_toNat]
  omega

@[simp] theorem hiByte_word16 (hi lo : Byte) : hiByte (word16 hi lo) = hi := by
  apply BitVec.eq_of_toNat_eq
  have l := lo.isLt
  rw [hiByte_toNat, word16_toNat]
  omega

@[simp] theorem loByte_word16 (hi lo : Byte) : loByte (word16 hi lo) = lo := by
  apply BitVec.eq_of_toNat_eq
  have l := lo.isLt
  rw [loByte_toNat, word16_toNat]
  omega

/-! ## One byte of memory -/

/-- An address below every listed one reads as 0. -/
theorem Memory.byte_eq_zero_of_lt {m : Memory} {a : Nat} (h : ∀ c ∈ m, a < c.1) : m.byte a = 0#8 := by
  induction m with
  | nil => rfl
  | cons c m ih =>
    have hc := h c (by simp)
    simp only [Memory.byte]
    rw [if_neg (by omega)]
    exact ih fun d hd => h d (by simp [hd])

theorem Memory.wf_tail {c : Host.Cell} {m : Memory} (h : Memory.wf (c :: m)) : m.wf :=
  ⟨(List.pairwise_cons.mp h.1).2, fun d hd => h.2 d (by simp [hd])⟩

theorem Memory.wf_head_lt {c : Host.Cell} {m : Memory} (h : Memory.wf (c :: m)) : ∀ d ∈ m, c.1 < d.1 :=
  (List.pairwise_cons.mp h.1).1

/-- Reading after a write: the value at its own address, the old byte everywhere else. -/
theorem Memory.byte_setByte {m : Memory} (h : m.wf) (a b : Nat) (v : Byte) :
    (m.setByte a v).byte b = if b = a then v else m.byte b := by
  induction m with
  | nil =>
    by_cases hb : b = a
    · subst hb; by_cases hv : v = 0#8 <;> simp [Memory.setByte, Memory.byte, hv]
    · by_cases hv : v = 0#8 <;> simp [Memory.setByte, Memory.byte, hv, hb, Ne.symm hb]
  | cons c m ih =>
    obtain ⟨k, u⟩ := c
    have hlt := Memory.wf_head_lt h
    have ih := ih (Memory.wf_tail h)
    simp only [Memory.setByte]
    by_cases h1 : a < k
    · have hz : Memory.byte m a = 0#8 := Memory.byte_eq_zero_of_lt fun d hd => by have := hlt d hd; simp only at this; omega
      by_cases hv : v = 0#8
      · by_cases hb : b = a
        · subst hb; simp [h1, hv, Memory.byte, hz, show k ≠ b by omega]
        · simp [h1, hv, hb]
      · by_cases hb : b = a
        · subst hb; simp [h1, hv, Memory.byte]
        · simp [h1, hv, hb, Memory.byte, show a ≠ b by omega]
    · by_cases h2 : a = k
      · subst h2
        have hz : Memory.byte m a = 0#8 := Memory.byte_eq_zero_of_lt hlt
        by_cases hv : v = 0#8
        · by_cases hb : b = a
          · subst hb; simp [hv, hz]
          · simp [hv, hb, Memory.byte, show a ≠ b by omega]
        · by_cases hb : b = a
          · subst hb; simp [hv, Memory.byte]
          · simp [hv, hb, Memory.byte, show a ≠ b by omega]
      · simp only [h1, h2, if_false, Memory.byte]
        by_cases hk : k = b
        · subst hk; simp [Ne.symm h2]
        · simp only [hk, if_false, ih]

@[simp] theorem Memory.byte_setByte_same {m : Memory} (h : m.wf) (a : Nat) (v : Byte) :
    (m.setByte a v).byte a = v := by simp [Memory.byte_setByte h]

theorem Memory.byte_setByte_other {m : Memory} (h : m.wf) {a b : Nat} (hb : b ≠ a) (v : Byte) :
    (m.setByte a v).byte b = m.byte b := by simp [Memory.byte_setByte h, hb]

/-- Every entry after a write is the written one or an old one. -/
theorem Memory.mem_setByte {m : Memory} {a : Nat} {v : Byte} {c : Host.Cell} (hc : c ∈ m.setByte a v) :
    (c = (a, v) ∧ v ≠ 0#8) ∨ c ∈ m := by
  induction m with
  | nil =>
    by_cases hv : v = 0#8 <;> simp [Memory.setByte, hv] at hc
    exact .inl ⟨hc, hv⟩
  | cons d m ih =>
    obtain ⟨k, u⟩ := d
    simp only [Memory.setByte] at hc
    split at hc
    · split at hc
      · exact .inr hc
      · rcases List.mem_cons.mp hc with rfl | hc
        · exact .inl ⟨rfl, ‹_›⟩
        · exact .inr hc
    · split at hc
      · split at hc
        · exact .inr (List.mem_cons_of_mem _ hc)
        · rcases List.mem_cons.mp hc with rfl | hc
          · exact .inl ⟨rfl, ‹_›⟩
          · exact .inr (List.mem_cons_of_mem _ hc)
      · rcases List.mem_cons.mp hc with rfl | hc
        · exact .inr (by simp)
        · rcases ih hc with h | h
          · exact .inl h
          · exact .inr (List.mem_cons_of_mem _ h)

/-- A write to an address of the memory keeps the canonical form. -/
theorem Memory.setByte_wf {m : Memory} (h : m.wf) {a : Nat} (ha : a < 8192) (v : Byte) : (m.setByte a v).wf := by
  refine ⟨?_, fun c hc => ?_⟩
  · induction m with
    | nil => by_cases hv : v = 0#8 <;> simp [Memory.setByte, hv]
    | cons d m ih =>
      obtain ⟨k, u⟩ := d
      have hlt := Memory.wf_head_lt h
      have ih := ih (Memory.wf_tail h)
      simp only [Memory.setByte]
      split
      · split
        · exact h.1
        · refine List.pairwise_cons.mpr ⟨fun c hc => ?_, h.1⟩
          rcases List.mem_cons.mp hc with rfl | hc
          · assumption
          · have := hlt c hc; simp only at this ⊢; omega
      · split
        · split
          · exact (Memory.wf_tail h).1
          · subst a; exact List.pairwise_cons.mpr ⟨hlt, (Memory.wf_tail h).1⟩
        · refine List.pairwise_cons.mpr ⟨fun c hc => ?_, ih⟩
          rcases Memory.mem_setByte hc with ⟨rfl, -⟩ | hc
          · simp only; omega
          · exact hlt c hc
  · rcases Memory.mem_setByte hc with ⟨rfl, hv⟩ | hc
    · exact ⟨by simpa using ha, hv⟩
    · exact h.2 c hc

theorem Memory.nil_wf : Memory.wf [] := by simp [Memory.wf]

/-! ## The 2-byte accesses -/

theorem accessOutOfRange_eq_true {addr : Word} : accessOutOfRange addr = true ↔ 8191 ≤ addr.toNat := by
  simp [accessOutOfRange]

theorem accessOutOfRange_eq_false {addr : Word} : accessOutOfRange addr = false ↔ addr.toNat ≤ 8190 := by
  simp [accessOutOfRange]; omega

theorem memRead_ok {s : State} {addr : Word} (h : addr.toNat ≤ 8190) :
    memRead s addr = .ok (word16 (s.byte addr.toNat) (s.byte (addr.toNat + 1))) := by
  simp [memRead, accessOutOfRange_eq_false.mpr h]

theorem memRead_error {s : State} {addr : Word} (h : 8191 ≤ addr.toNat) :
    memRead s addr = .error (.outOfRangeAccess (.mem addr)) := by
  simp [memRead, accessOutOfRange_eq_true.mpr h]

theorem memWrite_ok {s : State} {addr v : Word} (h : addr.toNat ≤ 8190) :
    memWrite s addr v = .ok (s.setMem (s.mem.setWord addr.toNat v)) := by
  simp [memWrite, accessOutOfRange_eq_false.mpr h]

theorem memWrite_error {s : State} {addr v : Word} (h : 8191 ≤ addr.toNat) :
    memWrite s addr v = .error (.outOfRangeAccess (.mem addr)) := by
  simp [memWrite, accessOutOfRange_eq_true.mpr h]

theorem Memory.setWord_wf {m : Memory} (h : m.wf) {a : Nat} (ha : a ≤ 8190) (v : Word) : (m.setWord a v).wf :=
  Memory.setByte_wf (Memory.setByte_wf h (by omega) _) (by omega) _

/-- The bytes after a 2-byte write: the high byte first, everything else as before. -/
theorem Memory.byte_setWord {m : Memory} (h : m.wf) {a : Nat} (ha : a ≤ 8190) (v : Word) (b : Nat) :
    (m.setWord a v).byte b = if b = a then hiByte v else if b = a + 1 then loByte v else m.byte b := by
  rw [Memory.setWord, Memory.byte_setByte (Memory.setByte_wf h (by omega) _), Memory.byte_setByte h]
  by_cases h1 : b = a
  · subst h1; simp
  · simp [h1]

end Sys2Proof.Machine
end

