-- ==== Sys2Proof/Laws/Operands.lean ====
section
/-! SUPPORT. What the shared operations answer: register operands, raising, and the two common shapes of a handler. -/

namespace Sys2Proof.Machine

/-! ## Register operands -/

/-- An operand byte of 0 to 15, as the register it selects. -/
theorem regIdx_ok {v : Byte} {i : Fin 16} (h : v.toNat = i.val) : regIdx v = .ok i := by
  simp [regIdx, h]

theorem regIdx_error {v : Byte} (h : 16 ≤ v.toNat) : regIdx v = .error (.outOfRangeAccess (.reg v)) := by
  simp [regIdx, Nat.not_lt.mpr h]

/-- Everything `regIdx` can answer. -/
theorem regIdx_cases (v : Byte) :
    (∃ i : Fin 16, v.toNat = i.val ∧ regIdx v = .ok i) ∨
    (16 ≤ v.toNat ∧ regIdx v = .error (.outOfRangeAccess (.reg v))) := by
  by_cases h : v.toNat < 16
  · exact .inl ⟨⟨v.toNat, h⟩, rfl, regIdx_ok rfl⟩
  · exact .inr ⟨by omega, regIdx_error (by omega)⟩

/-! ## The end of a handler -/

@[simp] theorem conclude_ok (s t : State) : conclude s (.ok t) = .next t := rfl
@[simp] theorem conclude_error (s : State) (f : Failure) : conclude s (.error f) = .next (s.raise f) := rfl

@[simp] theorem except_ok_bind {α β : Type} (a : α) (k : α → Except Failure β) :
    ((Except.ok a : Except Failure α) >>= k) = k a := rfl
@[simp] theorem except_error_bind {α β : Type} (f : Failure) (k : α → Except Failure β) :
    ((Except.error f : Except Failure α) >>= k) = .error f := rfl
@[simp] theorem except_pure {α : Type} (a : α) : (pure a : Except Failure α) = .ok a := rfl

/-! ## The common shapes -/

section
variable {dst src1 src2 src : Byte} {d s1 s2 : Fin 16} {s : State}

theorem threeReg_ok {f : Word → Word → Except Failure Word} {v : Word} (hd : dst.toNat = d.val)
    (h1 : src1.toNat = s1.val) (h2 : src2.toNat = s2.val) (hf : f (s.reg s1) (s.reg s2) = .ok v) :
    threeReg dst src1 src2 f s = .next (s.setReg d v) := by
  simp [threeReg, regIdx_ok hd, regIdx_ok h1, regIdx_ok h2, hf]

theorem threeReg_error {f : Word → Word → Except Failure Word} {e : Failure} (hd : dst.toNat = d.val)
    (h1 : src1.toNat = s1.val) (h2 : src2.toNat = s2.val) (hf : f (s.reg s1) (s.reg s2) = .error e) :
    threeReg dst src1 src2 f s = .next (s.raise e) := by
  simp [threeReg, regIdx_ok hd, regIdx_ok h1, regIdx_ok h2, hf]

/-- The first of the three operands that selects no register decides the failure. -/
theorem threeReg_bad {f : Word → Word → Except Failure Word} {v : Byte}
    (h : [dst, src1, src2].find? (fun v => decide (16 ≤ v.toNat)) = some v) :
    threeReg dst src1 src2 f s = .next (s.raise (.outOfRangeAccess (.reg v))) := by
  rcases regIdx_cases dst with ⟨d, hd, ed⟩ | ⟨hd, ed⟩
  · rcases regIdx_cases src1 with ⟨s1, h1, e1⟩ | ⟨h1, e1⟩
    · rcases regIdx_cases src2 with ⟨s2, h2, e2⟩ | ⟨h2, e2⟩
      · simp [List.find?, hd, h1, h2, Nat.not_le.mpr d.isLt, Nat.not_le.mpr s1.isLt, Nat.not_le.mpr s2.isLt] at h
      · simp [List.find?, hd, h1, h2, Nat.not_le.mpr d.isLt, Nat.not_le.mpr s1.isLt] at h
        subst h; simp [threeReg, ed, e1, e2]
    · simp [List.find?, hd, h1, Nat.not_le.mpr d.isLt] at h
      subst h; simp [threeReg, ed, e1]
  · simp [List.find?, hd] at h
    subst h; simp [threeReg, ed]

/-- Everything a three-register instruction can do. -/
theorem threeReg_cases (dst src1 src2 : Byte) (f : Word → Word → Except Failure Word) (s : State) :
    (∃ d s1 s2 : Fin 16, ∃ v : Word, dst.toNat = d.val ∧ src1.toNat = s1.val ∧ src2.toNat = s2.val ∧
      f (s.reg s1) (s.reg s2) = .ok v ∧ threeReg dst src1 src2 f s = .next (s.setReg d v)) ∨
    (∃ d s1 s2 : Fin 16, ∃ e : Failure, dst.toNat = d.val ∧ src1.toNat = s1.val ∧ src2.toNat = s2.val ∧
      f (s.reg s1) (s.reg s2) = .error e ∧ threeReg dst src1 src2 f s = .next (s.raise e)) ∨
    (∃ v : Byte, [dst, src1, src2].find? (fun v => decide (16 ≤ v.toNat)) = some v ∧
      threeReg dst src1 src2 f s = .next (s.raise (.outOfRangeAccess (.reg v)))) := by
  cases hb : [dst, src1, src2].find? (fun v => decide (16 ≤ v.toNat)) with
  | some v => exact .inr (.inr ⟨v, rfl, threeReg_bad hb⟩)
  | none =>
    simp at hb
    obtain ⟨hd, h1, h2⟩ := hb
    cases hf : f (s.reg ⟨src1.toNat, h1⟩) (s.reg ⟨src2.toNat, h2⟩) with
    | ok v => exact .inl ⟨⟨_, hd⟩, ⟨_, h1⟩, ⟨_, h2⟩, v, rfl, rfl, rfl, hf, threeReg_ok rfl rfl rfl hf⟩
    | error e => exact .inr (.inl ⟨⟨_, hd⟩, ⟨_, h1⟩, ⟨_, h2⟩, e, rfl, rfl, rfl, hf,
        threeReg_error (d := ⟨_, hd⟩) rfl rfl rfl hf⟩)

theorem twoReg_ok {f : Word → Word} (hd : dst.toNat = d.val) (h1 : src.toNat = s1.val) :
    twoReg dst src f s = .next (s.setReg d (f (s.reg s1))) := by
  simp [twoReg, regIdx_ok hd, regIdx_ok h1]

/-- The first of the two operands that selects no register decides the failure. -/
theorem twoReg_bad {f : Word → Word} {v : Byte}
    (h : [dst, src].find? (fun v => decide (16 ≤ v.toNat)) = some v) :
    twoReg dst src f s = .next (s.raise (.outOfRangeAccess (.reg v))) := by
  rcases regIdx_cases dst with ⟨d, hd, ed⟩ | ⟨hd, ed⟩
  · rcases regIdx_cases src with ⟨s1, h1, e1⟩ | ⟨h1, e1⟩
    · simp [List.find?, hd, h1, Nat.not_le.mpr d.isLt, Nat.not_le.mpr s1.isLt] at h
    · simp [List.find?, hd, h1, Nat.not_le.mpr d.isLt] at h
      subst h; simp [twoReg, ed, e1]
  · simp [List.find?, hd] at h
    subst h; simp [twoReg, ed]

/-- Everything a two-register instruction can do. -/
theorem twoReg_cases (dst src : Byte) (f : Word → Word) (s : State) :
    (∃ d s1 : Fin 16, dst.toNat = d.val ∧ src.toNat = s1.val ∧
      twoReg dst src f s = .next (s.setReg d (f (s.reg s1)))) ∨
    (∃ v : Byte, [dst, src].find? (fun v => decide (16 ≤ v.toNat)) = some v ∧
      twoReg dst src f s = .next (s.raise (.outOfRangeAccess (.reg v)))) := by
  cases hb : [dst, src].find? (fun v => decide (16 ≤ v.toNat)) with
  | some v => exact .inr ⟨v, rfl, twoReg_bad hb⟩
  | none =>
    simp at hb
    exact .inl ⟨⟨_, hb.1⟩, ⟨_, hb.2⟩, rfl, rfl, twoReg_ok rfl rfl⟩

end

end Sys2Proof.Machine
end

