-- ==== Sys2Proof/Laws/Exec.lean ====
section
/-! SUPPORT. What each kind of handler can do: one lemma per shape, and one for all instructions (`exec_cases`). -/

namespace Sys2Proof.Machine

/-! ## The arms of `exec` -/

section
variable (a b c : Byte) (s : State)

@[simp] theorem exec_nop : exec (.nop a b c) s = execNop a b c s := rfl
@[simp] theorem exec_add : exec (.add a b c) s = execAdd a b c s := rfl
@[simp] theorem exec_mul : exec (.mul a b c) s = execMul a b c s := rfl
@[simp] theorem exec_sub : exec (.sub a b c) s = execSub a b c s := rfl
@[simp] theorem exec_div : exec (.div a b c) s = execDiv a b c s := rfl
@[simp] theorem exec_copy : exec (.copy a b c) s = execCopy a b c s := rfl
@[simp] theorem exec_loadimm : exec (.loadimm a b c) s = execLoadimm a b c s := rfl
@[simp] theorem exec_load : exec (.load a b c) s = execLoad a b c s := rfl
@[simp] theorem exec_store : exec (.store a b c) s = execStore a b c s := rfl
@[simp] theorem exec_eq : exec (.eq a b c) s = execEq a b c s := rfl
@[simp] theorem exec_neq : exec (.neq a b c) s = execNeq a b c s := rfl
@[simp] theorem exec_lt : exec (.lt a b c) s = execLt a b c s := rfl
@[simp] theorem exec_lte : exec (.lte a b c) s = execLte a b c s := rfl
@[simp] theorem exec_gt : exec (.gt a b c) s = execGt a b c s := rfl
@[simp] theorem exec_gte : exec (.gte a b c) s = execGte a b c s := rfl
@[simp] theorem exec_jmp : exec (.jmp a b c) s = execJmp a b c s := rfl
@[simp] theorem exec_jmpIfZero : exec (.jmpIfZero a b c) s = execJmpIfZero a b c s := rfl
@[simp] theorem exec_jr : exec (.jr a b c) s = execJr a b c s := rfl
@[simp] theorem exec_jrIfZero : exec (.jrIfZero a b c) s = execJrIfZero a b c s := rfl
@[simp] theorem exec_and : exec (.and a b c) s = execAnd a b c s := rfl
@[simp] theorem exec_or : exec (.or a b c) s = execOr a b c s := rfl
@[simp] theorem exec_xor : exec (.xor a b c) s = execXor a b c s := rfl
@[simp] theorem exec_not : exec (.not a b c) s = execNot a b c s := rfl

end

/-! ## The result of each of these handlers, by case -/

section
variable {hi lo dst src : Byte} {d r : Fin 16} {s : State}

theorem execLoadimm_ok (hd : dst.toNat = d.val) :
    execLoadimm dst hi lo s = .next (s.setReg d (word16 hi lo)) := by
  simp [execLoadimm, regIdx_ok hd]

theorem execLoadimm_bad (h : 16 ≤ dst.toNat) :
    execLoadimm dst hi lo s = .next (s.raise (.outOfRangeAccess (.reg dst))) := by
  simp [execLoadimm, regIdx_error h]

theorem execLoad_ok (hd : dst.toNat = d.val) (ha : (word16 hi lo).toNat ≤ 8190) :
    execLoad dst hi lo s =
      .next (s.setReg d (word16 (s.byte (word16 hi lo).toNat) (s.byte ((word16 hi lo).toNat + 1)))) := by
  simp [execLoad, regIdx_ok hd, memRead_ok ha]

theorem execLoad_range (hd : dst.toNat = d.val) (ha : 8191 ≤ (word16 hi lo).toNat) :
    execLoad dst hi lo s = .next (s.raise (.outOfRangeAccess (.mem (word16 hi lo)))) := by
  simp [execLoad, regIdx_ok hd, memRead_error ha]

theorem execLoad_bad (h : 16 ≤ dst.toNat) :
    execLoad dst hi lo s = .next (s.raise (.outOfRangeAccess (.reg dst))) := by
  simp [execLoad, regIdx_error h]

theorem execStore_ok (hr : src.toNat = r.val) (ha : (word16 hi lo).toNat ≤ 8190) :
    execStore hi lo src s = .next (s.setMem (s.mem.setWord (word16 hi lo).toNat (s.reg r))) := by
  simp [execStore, regIdx_ok hr, memWrite_ok ha]

theorem execStore_range (hr : src.toNat = r.val) (ha : 8191 ≤ (word16 hi lo).toNat) :
    execStore hi lo src s = .next (s.raise (.outOfRangeAccess (.mem (word16 hi lo)))) := by
  simp [execStore, regIdx_ok hr, memWrite_error ha]

theorem execStore_bad (h : 16 ≤ src.toNat) :
    execStore hi lo src s = .next (s.raise (.outOfRangeAccess (.reg src))) := by
  simp [execStore, regIdx_error h]

theorem execJmpIfZero_taken (hr : src.toNat = r.val) (hz : s.reg r = 0#16) :
    execJmpIfZero hi lo src s = .next (s.setPc (word16 hi lo)) := by
  simp [execJmpIfZero, regIdx_ok hr, isZero, hz]

theorem execJmpIfZero_not_taken (hr : src.toNat = r.val) (hz : s.reg r ≠ 0#16) :
    execJmpIfZero hi lo src s = .next s := by
  simp [execJmpIfZero, regIdx_ok hr, isZero, hz]

theorem execJmpIfZero_bad (h : 16 ≤ src.toNat) :
    execJmpIfZero hi lo src s = .next (s.raise (.outOfRangeAccess (.reg src))) := by
  simp [execJmpIfZero, regIdx_error h]

end

/-! ## What each handler can do -/

/-- Everything `loadimm` can do. -/
theorem execLoadimm_cases (dst hi lo : Byte) (s : State) :
    (∃ d : Fin 16, dst.toNat = d.val ∧ execLoadimm dst hi lo s = .next (s.setReg d (word16 hi lo))) ∨
    (16 ≤ dst.toNat ∧ execLoadimm dst hi lo s = .next (s.raise (.outOfRangeAccess (.reg dst)))) := by
  rcases regIdx_cases dst with ⟨d, hd, -⟩ | ⟨hd, -⟩
  · exact .inl ⟨d, hd, execLoadimm_ok hd⟩
  · exact .inr ⟨hd, execLoadimm_bad hd⟩

/-- Everything `load` can do. -/
theorem execLoad_cases (dst hi lo : Byte) (s : State) :
    (∃ d : Fin 16, dst.toNat = d.val ∧ (word16 hi lo).toNat ≤ 8190 ∧ execLoad dst hi lo s =
      .next (s.setReg d (word16 (s.byte (word16 hi lo).toNat) (s.byte ((word16 hi lo).toNat + 1))))) ∨
    (∃ d : Fin 16, dst.toNat = d.val ∧ 8191 ≤ (word16 hi lo).toNat ∧
      execLoad dst hi lo s = .next (s.raise (.outOfRangeAccess (.mem (word16 hi lo))))) ∨
    (16 ≤ dst.toNat ∧ execLoad dst hi lo s = .next (s.raise (.outOfRangeAccess (.reg dst)))) := by
  rcases regIdx_cases dst with ⟨d, hd, -⟩ | ⟨hd, -⟩
  · by_cases h : (word16 hi lo).toNat ≤ 8190
    · exact .inl ⟨d, hd, h, execLoad_ok hd h⟩
    · have h : 8191 ≤ (word16 hi lo).toNat := by omega
      exact .inr (.inl ⟨d, hd, h, execLoad_range hd h⟩)
  · exact .inr (.inr ⟨hd, execLoad_bad hd⟩)

/-- Everything `store` can do. -/
theorem execStore_cases (hi lo src : Byte) (s : State) :
    (∃ r : Fin 16, src.toNat = r.val ∧ (word16 hi lo).toNat ≤ 8190 ∧
      execStore hi lo src s = .next (s.setMem (s.mem.setWord (word16 hi lo).toNat (s.reg r)))) ∨
    (∃ r : Fin 16, src.toNat = r.val ∧ 8191 ≤ (word16 hi lo).toNat ∧
      execStore hi lo src s = .next (s.raise (.outOfRangeAccess (.mem (word16 hi lo))))) ∨
    (16 ≤ src.toNat ∧ execStore hi lo src s = .next (s.raise (.outOfRangeAccess (.reg src)))) := by
  rcases regIdx_cases src with ⟨r, hr, -⟩ | ⟨hr, -⟩
  · by_cases h : (word16 hi lo).toNat ≤ 8190
    · exact .inl ⟨r, hr, h, execStore_ok hr h⟩
    · have h : 8191 ≤ (word16 hi lo).toNat := by omega
      exact .inr (.inl ⟨r, hr, h, execStore_range hr h⟩)
  · exact .inr (.inr ⟨hr, execStore_bad hr⟩)

/-- Everything `jmpIfZero` can do. -/
theorem execJmpIfZero_cases (hi lo src : Byte) (s : State) :
    (∃ r : Fin 16, src.toNat = r.val ∧ s.reg r = 0#16 ∧
      execJmpIfZero hi lo src s = .next (s.setPc (word16 hi lo))) ∨
    (∃ r : Fin 16, src.toNat = r.val ∧ s.reg r ≠ 0#16 ∧ execJmpIfZero hi lo src s = .next s) ∨
    (16 ≤ src.toNat ∧ execJmpIfZero hi lo src s = .next (s.raise (.outOfRangeAccess (.reg src)))) := by
  rcases regIdx_cases src with ⟨r, hr, -⟩ | ⟨hr, -⟩
  · by_cases h : s.reg r = 0#16
    · exact .inl ⟨r, hr, h, execJmpIfZero_taken hr h⟩
    · exact .inr (.inl ⟨r, hr, h, execJmpIfZero_not_taken hr h⟩)
  · exact .inr (.inr ⟨hr, execJmpIfZero_bad hr⟩)

/-- Everything the quotient can be. -/
theorem quotient_ok {v w : Word} (h : w ≠ 0#16) : quotient v w = .ok (v / w) := by simp [quotient, h]
theorem quotient_error (v : Word) : quotient v 0#16 = .error .divisionByZero := by simp [quotient]

/-- The failures a handler can raise: none of them is `EndOfProgram` or `InvalidOpcode`, which belong to the step. -/
def HandlerFailure (f : Failure) : Prop :=
  f = .divisionByZero ∨ (∃ r, f = .outOfRangeAccess r) ∨ ∃ op, f = .notImplemented op

/-- What an instruction can do, whichever it is: leave the state, write its one destination register, write one word of
memory, load the pc, or raise. -/
inductive Effect (i : Instr) (s : State) : State → Prop where
  | unchanged : Effect i s s
  | register (dst : Byte) (d : Fin 16) (v : Word) (hi : i.dstOperand = some dst) (hd : dst.toNat = d.val) :
      Effect i s (s.setReg d v)
  | memory (hi lo src : Byte) (r : Fin 16) (h : i = .store hi lo src) (hr : src.toNat = r.val)
      (ha : (word16 hi lo).toNat ≤ 8190) :
      Effect i s (s.setMem (s.mem.setWord (word16 hi lo).toNat (s.reg r)))
  | jump (hi lo c : Byte) (h : i = .jmp hi lo c ∨ i = .jmpIfZero hi lo c) : Effect i s (s.setPc (word16 hi lo))
  | failure (f : Failure) (hf : HandlerFailure f) : Effect i s (s.raise f)

/-- A three-register instruction writes its destination or raises. -/
theorem threeReg_effect {i : Instr} {dst src1 src2 : Byte} {f : Word → Word → Except Failure Word} {s : State}
    (hi : i.dstOperand = some dst) (hf : ∀ v w e, f v w = .error e → HandlerFailure e) :
    ∃ t, threeReg dst src1 src2 f s = .next t ∧ Effect i s t := by
  rcases threeReg_cases dst src1 src2 f s with ⟨d, _, _, v, hd, _, _, _, h⟩ | ⟨_, _, _, e, _, _, _, he, h⟩ | ⟨v, _, h⟩
  · exact ⟨_, h, .register dst d v hi hd⟩
  · exact ⟨_, h, .failure e (hf _ _ _ he)⟩
  · exact ⟨_, h, .failure _ (.inr (.inl ⟨_, rfl⟩))⟩

/-- The same where the value is always defined. -/
theorem threeReg_ok_effect {i : Instr} {dst src1 src2 : Byte} (g : Word → Word → Word) {s : State}
    (hi : i.dstOperand = some dst) :
    ∃ t, threeReg dst src1 src2 (fun v w => .ok (g v w)) s = .next t ∧ Effect i s t :=
  threeReg_effect hi fun _ _ _ h => by cases h

theorem quotient_failure {v w : Word} {e : Failure} (h : quotient v w = .error e) : HandlerFailure e := by
  by_cases hw : w = 0#16
  · subst hw; rw [quotient_error] at h; cases h; exact .inl rfl
  · rw [quotient_ok hw] at h; cases h

/-- A two-register instruction writes its destination or raises. -/
theorem twoReg_effect {i : Instr} {dst src : Byte} {f : Word → Word} {s : State} (hi : i.dstOperand = some dst) :
    ∃ t, twoReg dst src f s = .next t ∧ Effect i s t := by
  rcases twoReg_cases dst src f s with ⟨d, _, hd, _, h⟩ | ⟨v, _, h⟩
  · exact ⟨_, h, .register dst d _ hi hd⟩
  · exact ⟨_, h, .failure _ (.inr (.inl ⟨_, rfl⟩))⟩

/-- Every instruction answers a next state, which is one of the five effects. -/
theorem exec_cases (i : Instr) (s : State) : ∃ t, exec i s = .next t ∧ Effect i s t := by
  cases i with
  | nop => exact ⟨s, rfl, .unchanged⟩
  | add d a b => exact threeReg_ok_effect (dst := d) (fun v w => v + w) rfl
  | mul d a b => exact threeReg_ok_effect (dst := d) (fun v w => v * w) rfl
  | sub d a b => exact threeReg_ok_effect (dst := d) (fun v w => v - w) rfl
  | div d a b => exact threeReg_effect (dst := d) rfl fun _ _ _ h => quotient_failure h
  | copy d a c => exact twoReg_effect (f := fun v => v) (i := .copy d a c) rfl
  | loadimm dst hi lo =>
    rcases execLoadimm_cases dst hi lo s with ⟨d, hd, h⟩ | ⟨_, h⟩
    · exact ⟨_, h, .register dst d _ rfl hd⟩
    · exact ⟨_, h, .failure _ (.inr (.inl ⟨_, rfl⟩))⟩
  | load dst hi lo =>
    rcases execLoad_cases dst hi lo s with ⟨d, hd, _, h⟩ | ⟨_, _, _, h⟩ | ⟨_, h⟩
    · exact ⟨_, h, .register dst d _ rfl hd⟩
    · exact ⟨_, h, .failure _ (.inr (.inl ⟨_, rfl⟩))⟩
    · exact ⟨_, h, .failure _ (.inr (.inl ⟨_, rfl⟩))⟩
  | store hi lo src =>
    rcases execStore_cases hi lo src s with ⟨r, hr, ha, h⟩ | ⟨_, _, _, h⟩ | ⟨_, h⟩
    · exact ⟨_, h, .memory hi lo src r rfl hr ha⟩
    · exact ⟨_, h, .failure _ (.inr (.inl ⟨_, rfl⟩))⟩
    · exact ⟨_, h, .failure _ (.inr (.inl ⟨_, rfl⟩))⟩
  | eq d a b => exact threeReg_ok_effect (dst := d) (fun v w => b2w (relEq v w)) rfl
  | neq d a b => exact threeReg_ok_effect (dst := d) (fun v w => b2w (relNeq v w)) rfl
  | lt d a b => exact threeReg_ok_effect (dst := d) (fun v w => b2w (relLt v w)) rfl
  | lte d a b => exact threeReg_ok_effect (dst := d) (fun v w => b2w (relLte v w)) rfl
  | gt d a b => exact threeReg_ok_effect (dst := d) (fun v w => b2w (relGt v w)) rfl
  | gte d a b => exact threeReg_ok_effect (dst := d) (fun v w => b2w (relGte s.gteCorrected v w)) rfl
  | jmp hi lo c => exact ⟨_, rfl, .jump hi lo c (.inl rfl)⟩
  | jmpIfZero hi lo src =>
    rcases execJmpIfZero_cases hi lo src s with ⟨_, _, _, h⟩ | ⟨_, _, _, h⟩ | ⟨_, h⟩
    · exact ⟨_, h, .jump hi lo src (.inr rfl)⟩
    · exact ⟨_, h, .unchanged⟩
    · exact ⟨_, h, .failure _ (.inr (.inl ⟨_, rfl⟩))⟩
  | jr => exact ⟨_, rfl, .failure _ (.inr (.inr ⟨_, rfl⟩))⟩
  | jrIfZero => exact ⟨_, rfl, .failure _ (.inr (.inr ⟨_, rfl⟩))⟩
  | and d a b => exact threeReg_ok_effect (dst := d) (fun v w => v &&& w) rfl
  | or d a b => exact threeReg_ok_effect (dst := d) (fun v w => v ||| w) rfl
  | xor d a b => exact threeReg_ok_effect (dst := d) (fun v w => v ^^^ w) rfl
  | not d a c => exact twoReg_effect (f := fun v => ~~~v) (i := .not d a c) rfl

end Sys2Proof.Machine
end

