-- ==== Sys2Proof/Laws/Agree.lean ====
section
/-! SUPPORT. What an instruction does in two states at once: where they agree on all that the instruction reads, it does the
same thing in both (`exec_agree`). Claims about what an instruction does NOT read cite this and never unfold a handler. -/

namespace Sys2Proof.Machine

/-- One effect (of the five of `Effect`) had in `s` and in `s'`: the same register and word, the same stored word, the same
target, the same failure. -/
inductive SameEffect (i : Instr) (s s' : State) : State → State → Prop where
  | unchanged : SameEffect i s s' s s'
  | register (dst : Byte) (d : Fin 16) (v : Word) (hi : i.dstOperand = some dst) (hd : dst.toNat = d.val) :
      SameEffect i s s' (s.setReg d v) (s'.setReg d v)
  | memory (hi lo src : Byte) (v : Word) (h : i = .store hi lo src) (ha : (word16 hi lo).toNat ≤ 8190) :
      SameEffect i s s' (s.setMem (s.mem.setWord (word16 hi lo).toNat v))
        (s'.setMem (s'.mem.setWord (word16 hi lo).toNat v))
  | jump (hi lo c : Byte) (h : i = .jmp hi lo c ∨ i = .jmpIfZero hi lo c) :
      SameEffect i s s' (s.setPc (word16 hi lo)) (s'.setPc (word16 hi lo))
  | failure (f : Failure) : SameEffect i s s' (s.raise f) (s'.raise f)

section
variable {i : Instr} {s s' : State}

theorem threeReg_agree (a b c : Byte) (f : Word → Word → Except Failure Word) (hs : i.srcOperands = [b, c])
    (hd : i.dstOperand = some a)
    (hr : ∀ b ∈ i.srcOperands, ∀ r : Fin 16, b.toNat = r.val → s'.reg r = s.reg r) :
    ∃ t u, threeReg a b c f s = .next t ∧ threeReg a b c f s' = .next u ∧ SameEffect i s s' t u := by
  have h1 := hr b (by simp [hs])
  have h2 := hr c (by simp [hs])
  rcases threeReg_cases a b c f s with ⟨d, r1, r2, v, ed, e1, e2, hf, e⟩ | ⟨d, r1, r2, g, ed, e1, e2, hf, e⟩ | ⟨v, hv, e⟩
  · exact ⟨_, _, e, threeReg_ok ed e1 e2 (by rw [h1 r1 e1, h2 r2 e2, hf]), .register a d v hd ed⟩
  · exact ⟨_, _, e, threeReg_error ed e1 e2 (by rw [h1 r1 e1, h2 r2 e2, hf]), .failure g⟩
  · exact ⟨_, _, e, threeReg_bad hv, .failure _⟩

theorem twoReg_agree (a b : Byte) (f : Word → Word) (hs : i.srcOperands = [b]) (hd : i.dstOperand = some a)
    (hr : ∀ b ∈ i.srcOperands, ∀ r : Fin 16, b.toNat = r.val → s'.reg r = s.reg r) :
    ∃ t u, twoReg a b f s = .next t ∧ twoReg a b f s' = .next u ∧ SameEffect i s s' t u := by
  rcases twoReg_cases a b f s with ⟨d, r, ed, e1, e⟩ | ⟨v, hv, e⟩
  · exact ⟨_, _, e, by rw [twoReg_ok ed e1, hr b (by simp [hs]) r e1], .register a d _ hd ed⟩
  · exact ⟨_, _, e, twoReg_bad hv, .failure _⟩

/-- An instruction has the same effect in two states that agree on its source registers, on the data memory if it is a
`load`, and on `GTE_CORRECTED` if it is a `gte`: it reads nothing else. -/
theorem exec_agree (hr : ∀ b ∈ i.srcOperands, ∀ r : Fin 16, b.toNat = r.val → s'.reg r = s.reg r)
    (hm : (∀ dst addrHi addrLo, i ≠ .load dst addrHi addrLo) ∨ s'.mem = s.mem)
    (hg : (∀ dst src1 src2, i ≠ .gte dst src1 src2) ∨ s'.gteCorrected = s.gteCorrected) :
    ∃ t u, exec i s = .next t ∧ exec i s' = .next u ∧ SameEffect i s s' t u := by
  cases i with
  | nop => exact ⟨_, _, rfl, rfl, .unchanged⟩
  | jmp h l c => exact ⟨_, _, rfl, rfl, .jump h l c (.inl rfl)⟩
  | jr => exact ⟨_, _, rfl, rfl, .failure _⟩
  | jrIfZero => exact ⟨_, _, rfl, rfl, .failure _⟩
  | add a b c => exact threeReg_agree a b c (fun v w => .ok (v + w)) rfl rfl hr
  | mul a b c => exact threeReg_agree a b c (fun v w => .ok (v * w)) rfl rfl hr
  | sub a b c => exact threeReg_agree a b c (fun v w => .ok (v - w)) rfl rfl hr
  | div a b c => exact threeReg_agree a b c quotient rfl rfl hr
  | eq a b c => exact threeReg_agree a b c (fun v w => .ok (b2w (relEq v w))) rfl rfl hr
  | neq a b c => exact threeReg_agree a b c (fun v w => .ok (b2w (relNeq v w))) rfl rfl hr
  | lt a b c => exact threeReg_agree a b c (fun v w => .ok (b2w (relLt v w))) rfl rfl hr
  | lte a b c => exact threeReg_agree a b c (fun v w => .ok (b2w (relLte v w))) rfl rfl hr
  | gt a b c => exact threeReg_agree a b c (fun v w => .ok (b2w (relGt v w))) rfl rfl hr
  | gte a b c =>
    rcases hg with hg | hg
    · exact absurd rfl (hg a b c)
    · have h := threeReg_agree a b c (fun v w => .ok (b2w (relGte s.gteCorrected v w))) rfl rfl hr
      simp only [exec_gte, execGte, hg]; exact h
  | and a b c => exact threeReg_agree a b c (fun v w => .ok (v &&& w)) rfl rfl hr
  | or a b c => exact threeReg_agree a b c (fun v w => .ok (v ||| w)) rfl rfl hr
  | xor a b c => exact threeReg_agree a b c (fun v w => .ok (v ^^^ w)) rfl rfl hr
  | copy a b c => exact twoReg_agree a b (fun v => v) rfl rfl hr
  | not a b c => exact twoReg_agree a b (fun v => ~~~v) rfl rfl hr
  | loadimm d h l =>
    rcases execLoadimm_cases d h l s with ⟨r, hd, e⟩ | ⟨h0, e⟩
    · exact ⟨_, _, e, execLoadimm_ok hd, .register d r _ rfl hd⟩
    · exact ⟨_, _, e, execLoadimm_bad h0, .failure _⟩
  | load d h l =>
    rcases hm with hm | hm
    · exact absurd rfl (hm d h l)
    rcases execLoad_cases d h l s with ⟨r, hd, ha, e⟩ | ⟨r, hd, ha, e⟩ | ⟨h0, e⟩
    · exact ⟨_, _, e, by rw [exec_load, execLoad_ok hd ha]; simp only [State.byte, hm], .register d r _ rfl hd⟩
    · exact ⟨_, _, e, execLoad_range hd ha, .failure _⟩
    · exact ⟨_, _, e, execLoad_bad h0, .failure _⟩
  | store h l c =>
    rcases execStore_cases h l c s with ⟨r, hd, ha, e⟩ | ⟨r, hd, ha, e⟩ | ⟨h0, e⟩
    · exact ⟨_, _, e, by rw [exec_store, execStore_ok hd ha, hr c (by simp [Instr.srcOperands]) r hd], .memory h l c _ rfl ha⟩
    · exact ⟨_, _, e, execStore_range hd ha, .failure _⟩
    · exact ⟨_, _, e, execStore_bad h0, .failure _⟩
  | jmpIfZero h l c =>
    rcases execJmpIfZero_cases h l c s with ⟨r, hd, ha, e⟩ | ⟨r, hd, ha, e⟩ | ⟨h0, e⟩
    · exact ⟨_, _, e, execJmpIfZero_taken hd (by rw [hr c (by simp [Instr.srcOperands]) r hd, ha]), .jump h l c (.inr rfl)⟩
    · exact ⟨_, _, e, execJmpIfZero_not_taken hd (by rw [hr c (by simp [Instr.srcOperands]) r hd]; exact ha), .unchanged⟩
    · exact ⟨_, _, e, execJmpIfZero_bad h0, .failure _⟩

end

end Sys2Proof.Machine
end

