-- ==== Sys2Proof/Laws/Decode.lean ====
section
/-! SUPPORT. What the decoder answers, and one instruction at the head of a byte sequence. -/

namespace Sys2Proof

/-- The decoder on an opcode byte of the map. -/
theorem decode_of_opcode {w : InstrBytes} {m : Mnemonic} (h : opcodeMap[w.op.toNat]? = some m) :
    decode w = .ok (m.build w.a w.b w.c) := by
  simp [decode, h]

/-- The decoder rejects exactly the opcode bytes that have no place in the map. -/
theorem decode_error_iff {w : InstrBytes} {e : DecodeError} :
    decode w = .error e ↔ e = .invalidOpcode w.op ∧ 23 ≤ w.op.toNat := by
  unfold decode
  cases h : opcodeMap[w.op.toNat]? with
  | none =>
    have : 23 ≤ w.op.toNat := by simpa [opcodeMap] using h
    simp [this, eq_comm]
  | some m =>
    obtain ⟨hl, -⟩ := List.getElem?_eq_some_iff.mp h
    have : w.op.toNat < 23 := by simpa [opcodeMap] using hl
    simp; omega

@[simp] theorem InstrBytes.length_toList (w : InstrBytes) : w.toList.length = 4 := rfl

/-- The number the pattern of R11 is. -/
theorem InstrBytes.toPattern_toNat (w : InstrBytes) :
    w.toPattern.toNat = ((w.op.toNat * 256 + w.a.toNat) * 256 + w.b.toNat) * 256 + w.c.toNat := by
  show (w.op ++ w.a ++ w.b ++ w.c).toNat = _
  rw [BitVec.toNat_append, BitVec.toNat_append, BitVec.toNat_append, ← Nat.shiftLeft_add_eq_or_of_lt w.a.isLt,
    ← Nat.shiftLeft_add_eq_or_of_lt w.b.isLt, ← Nat.shiftLeft_add_eq_or_of_lt w.c.isLt]
  simp only [Nat.shiftLeft_eq]

/-- The pattern of R11 and its four fields (R61). -/
theorem InstrBytes.ofPattern_toPattern (w : InstrBytes) : InstrBytes.ofPattern w.toPattern = w := by
  have hop := w.op.isLt
  have ha := w.a.isLt
  have hb := w.b.isLt
  have hc := w.c.isLt
  have field (k : Nat) (v : Byte) (h : w.toPattern.toNat >>> k % 256 = v.toNat) : w.toPattern.extractLsb' k 8 = v :=
    BitVec.eq_of_toNat_eq (by simpa using h)
  simp only [InstrBytes.ofPattern]
  rw [field 24 w.op, field 16 w.a, field 8 w.b, field 0 w.c] <;>
    simp only [InstrBytes.toPattern_toNat, Nat.shiftRight_eq_div_pow] <;> omega

theorem decodeBytes_toList_append (w : InstrBytes) (rest : List Byte) :
    decodeBytes (w.toList ++ rest) = decode w := rfl

theorem encodeProgram_cons (i : Instr) (is : List Instr) :
    encodeProgram (i :: is) = (encode i).toList ++ encodeProgram is := by simp [encodeProgram]

theorem length_encodeProgram (is : List Instr) : (encodeProgram is).length = 4 * is.length := by
  induction is with
  | nil => rfl
  | cons i is ih => rw [encodeProgram_cons, List.length_append, ih, InstrBytes.length_toList, List.length_cons]; omega

end Sys2Proof
end

