-- ==== Sys2Proof/Laws/PerInstr.lean ====
section
/-! SUPPORT. Statements made per instruction. -/

namespace Sys2Proof.Laws

/-- Decoding an instruction's encoding gives it back: no operand bit is dropped (R61, R63). -/
def RoundTrip.Statement (i : Instr) : Prop := decode (encode i) = .ok i

/-- The canonical spelling keeps the opcode byte and every register operand (R63, R68): only ignored bytes change. -/
def Canonical.Statement (i : Instr) : Prop :=
  (encode i.canonical).op = (encode i).op ∧ i.canonical.regOperands = i.regOperands ∧
    i.canonical.dstOperand = i.dstOperand ∧ i.canonical.canonical = i.canonical

end Sys2Proof.Laws

theorem Sys2Proof.Laws.RoundTrip.nop (a b c : Sys2Proof.Byte) :
    Sys2Proof.Laws.RoundTrip.Statement (.nop a b c) := rfl
theorem Sys2Proof.Laws.RoundTrip.add (dst src1 src2 : Sys2Proof.Byte) :
    Sys2Proof.Laws.RoundTrip.Statement (.add dst src1 src2) := rfl
theorem Sys2Proof.Laws.RoundTrip.mul (dst src1 src2 : Sys2Proof.Byte) :
    Sys2Proof.Laws.RoundTrip.Statement (.mul dst src1 src2) := rfl
theorem Sys2Proof.Laws.RoundTrip.sub (dst src1 src2 : Sys2Proof.Byte) :
    Sys2Proof.Laws.RoundTrip.Statement (.sub dst src1 src2) := rfl
theorem Sys2Proof.Laws.RoundTrip.div (dst src1 src2 : Sys2Proof.Byte) :
    Sys2Proof.Laws.RoundTrip.Statement (.div dst src1 src2) := rfl
theorem Sys2Proof.Laws.RoundTrip.copy (dst src c : Sys2Proof.Byte) :
    Sys2Proof.Laws.RoundTrip.Statement (.copy dst src c) := rfl
theorem Sys2Proof.Laws.RoundTrip.loadimm (dst hi lo : Sys2Proof.Byte) :
    Sys2Proof.Laws.RoundTrip.Statement (.loadimm dst hi lo) := rfl
theorem Sys2Proof.Laws.RoundTrip.load (dst addrHi addrLo : Sys2Proof.Byte) :
    Sys2Proof.Laws.RoundTrip.Statement (.load dst addrHi addrLo) := rfl
theorem Sys2Proof.Laws.RoundTrip.store (addrHi addrLo src : Sys2Proof.Byte) :
    Sys2Proof.Laws.RoundTrip.Statement (.store addrHi addrLo src) := rfl
theorem Sys2Proof.Laws.RoundTrip.eq (dst src1 src2 : Sys2Proof.Byte) :
    Sys2Proof.Laws.RoundTrip.Statement (.eq dst src1 src2) := rfl
theorem Sys2Proof.Laws.RoundTrip.neq (dst src1 src2 : Sys2Proof.Byte) :
    Sys2Proof.Laws.RoundTrip.Statement (.neq dst src1 src2) := rfl
theorem Sys2Proof.Laws.RoundTrip.lt (dst src1 src2 : Sys2Proof.Byte) :
    Sys2Proof.Laws.RoundTrip.Statement (.lt dst src1 src2) := rfl
theorem Sys2Proof.Laws.RoundTrip.lte (dst src1 src2 : Sys2Proof.Byte) :
    Sys2Proof.Laws.RoundTrip.Statement (.lte dst src1 src2) := rfl
theorem Sys2Proof.Laws.RoundTrip.gt (dst src1 src2 : Sys2Proof.Byte) :
    Sys2Proof.Laws.RoundTrip.Statement (.gt dst src1 src2) := rfl
theorem Sys2Proof.Laws.RoundTrip.gte (dst src1 src2 : Sys2Proof.Byte) :
    Sys2Proof.Laws.RoundTrip.Statement (.gte dst src1 src2) := rfl
theorem Sys2Proof.Laws.RoundTrip.jmp (addrHi addrLo c : Sys2Proof.Byte) :
    Sys2Proof.Laws.RoundTrip.Statement (.jmp addrHi addrLo c) := rfl
theorem Sys2Proof.Laws.RoundTrip.jmpIfZero (addrHi addrLo src : Sys2Proof.Byte) :
    Sys2Proof.Laws.RoundTrip.Statement (.jmpIfZero addrHi addrLo src) := rfl
theorem Sys2Proof.Laws.RoundTrip.jr (a b c : Sys2Proof.Byte) :
    Sys2Proof.Laws.RoundTrip.Statement (.jr a b c) := rfl
theorem Sys2Proof.Laws.RoundTrip.jrIfZero (a b c : Sys2Proof.Byte) :
    Sys2Proof.Laws.RoundTrip.Statement (.jrIfZero a b c) := rfl
theorem Sys2Proof.Laws.RoundTrip.and (dst src1 src2 : Sys2Proof.Byte) :
    Sys2Proof.Laws.RoundTrip.Statement (.and dst src1 src2) := rfl
theorem Sys2Proof.Laws.RoundTrip.or (dst src1 src2 : Sys2Proof.Byte) :
    Sys2Proof.Laws.RoundTrip.Statement (.or dst src1 src2) := rfl
theorem Sys2Proof.Laws.RoundTrip.xor (dst src1 src2 : Sys2Proof.Byte) :
    Sys2Proof.Laws.RoundTrip.Statement (.xor dst src1 src2) := rfl
theorem Sys2Proof.Laws.RoundTrip.not (dst src c : Sys2Proof.Byte) :
    Sys2Proof.Laws.RoundTrip.Statement (.not dst src c) := rfl

theorem Sys2Proof.Laws.Canonical.nop (a b c : Sys2Proof.Byte) :
    Sys2Proof.Laws.Canonical.Statement (.nop a b c) := ⟨rfl, rfl, rfl, rfl⟩
theorem Sys2Proof.Laws.Canonical.add (dst src1 src2 : Sys2Proof.Byte) :
    Sys2Proof.Laws.Canonical.Statement (.add dst src1 src2) := ⟨rfl, rfl, rfl, rfl⟩
theorem Sys2Proof.Laws.Canonical.mul (dst src1 src2 : Sys2Proof.Byte) :
    Sys2Proof.Laws.Canonical.Statement (.mul dst src1 src2) := ⟨rfl, rfl, rfl, rfl⟩
theorem Sys2Proof.Laws.Canonical.sub (dst src1 src2 : Sys2Proof.Byte) :
    Sys2Proof.Laws.Canonical.Statement (.sub dst src1 src2) := ⟨rfl, rfl, rfl, rfl⟩
theorem Sys2Proof.Laws.Canonical.div (dst src1 src2 : Sys2Proof.Byte) :
    Sys2Proof.Laws.Canonical.Statement (.div dst src1 src2) := ⟨rfl, rfl, rfl, rfl⟩
theorem Sys2Proof.Laws.Canonical.copy (dst src c : Sys2Proof.Byte) :
    Sys2Proof.Laws.Canonical.Statement (.copy dst src c) := ⟨rfl, rfl, rfl, rfl⟩
theorem Sys2Proof.Laws.Canonical.loadimm (dst hi lo : Sys2Proof.Byte) :
    Sys2Proof.Laws.Canonical.Statement (.loadimm dst hi lo) := ⟨rfl, rfl, rfl, rfl⟩
theorem Sys2Proof.Laws.Canonical.load (dst addrHi addrLo : Sys2Proof.Byte) :
    Sys2Proof.Laws.Canonical.Statement (.load dst addrHi addrLo) := ⟨rfl, rfl, rfl, rfl⟩
theorem Sys2Proof.Laws.Canonical.store (addrHi addrLo src : Sys2Proof.Byte) :
    Sys2Proof.Laws.Canonical.Statement (.store addrHi addrLo src) := ⟨rfl, rfl, rfl, rfl⟩
theorem Sys2Proof.Laws.Canonical.eq (dst src1 src2 : Sys2Proof.Byte) :
    Sys2Proof.Laws.Canonical.Statement (.eq dst src1 src2) := ⟨rfl, rfl, rfl, rfl⟩
theorem Sys2Proof.Laws.Canonical.neq (dst src1 src2 : Sys2Proof.Byte) :
    Sys2Proof.Laws.Canonical.Statement (.neq dst src1 src2) := ⟨rfl, rfl, rfl, rfl⟩
theorem Sys2Proof.Laws.Canonical.lt (dst src1 src2 : Sys2Proof.Byte) :
    Sys2Proof.Laws.Canonical.Statement (.lt dst src1 src2) := ⟨rfl, rfl, rfl, rfl⟩
theorem Sys2Proof.Laws.Canonical.lte (dst src1 src2 : Sys2Proof.Byte) :
    Sys2Proof.Laws.Canonical.Statement (.lte dst src1 src2) := ⟨rfl, rfl, rfl, rfl⟩
theorem Sys2Proof.Laws.Canonical.gt (dst src1 src2 : Sys2Proof.Byte) :
    Sys2Proof.Laws.Canonical.Statement (.gt dst src1 src2) := ⟨rfl, rfl, rfl, rfl⟩
theorem Sys2Proof.Laws.Canonical.gte (dst src1 src2 : Sys2Proof.Byte) :
    Sys2Proof.Laws.Canonical.Statement (.gte dst src1 src2) := ⟨rfl, rfl, rfl, rfl⟩
theorem Sys2Proof.Laws.Canonical.jmp (addrHi addrLo c : Sys2Proof.Byte) :
    Sys2Proof.Laws.Canonical.Statement (.jmp addrHi addrLo c) := ⟨rfl, rfl, rfl, rfl⟩
theorem Sys2Proof.Laws.Canonical.jmpIfZero (addrHi addrLo src : Sys2Proof.Byte) :
    Sys2Proof.Laws.Canonical.Statement (.jmpIfZero addrHi addrLo src) := ⟨rfl, rfl, rfl, rfl⟩
theorem Sys2Proof.Laws.Canonical.jr (a b c : Sys2Proof.Byte) :
    Sys2Proof.Laws.Canonical.Statement (.jr a b c) := ⟨rfl, rfl, rfl, rfl⟩
theorem Sys2Proof.Laws.Canonical.jrIfZero (a b c : Sys2Proof.Byte) :
    Sys2Proof.Laws.Canonical.Statement (.jrIfZero a b c) := ⟨rfl, rfl, rfl, rfl⟩
theorem Sys2Proof.Laws.Canonical.and (dst src1 src2 : Sys2Proof.Byte) :
    Sys2Proof.Laws.Canonical.Statement (.and dst src1 src2) := ⟨rfl, rfl, rfl, rfl⟩
theorem Sys2Proof.Laws.Canonical.or (dst src1 src2 : Sys2Proof.Byte) :
    Sys2Proof.Laws.Canonical.Statement (.or dst src1 src2) := ⟨rfl, rfl, rfl, rfl⟩
theorem Sys2Proof.Laws.Canonical.xor (dst src1 src2 : Sys2Proof.Byte) :
    Sys2Proof.Laws.Canonical.Statement (.xor dst src1 src2) := ⟨rfl, rfl, rfl, rfl⟩
theorem Sys2Proof.Laws.Canonical.not (dst src c : Sys2Proof.Byte) :
    Sys2Proof.Laws.Canonical.Statement (.not dst src c) := ⟨rfl, rfl, rfl, rfl⟩
end

