-- ==== Sys2Proof/Laws/Step.lean ====
section
/-! SUPPORT. What one step can do: the inversion lemma `step_cases`, and what fetch answers. -/

namespace Sys2Proof.Machine

@[simp] theorem advance_pc (s : State) : (advance s).pc = s.pc + 4 := rfl
@[simp] theorem advance_reg (s : State) (r : Fin 16) : (advance s).reg r = s.reg r := rfl
@[simp] theorem advance_mem (s : State) : (advance s).mem = s.mem := rfl
@[simp] theorem advance_byte (s : State) (a : Nat) : (advance s).byte a = s.byte a := rfl
@[simp] theorem advance_status (s : State) : (advance s).status = s.status := rfl
@[simp] theorem advance_prog (s : State) : (advance s).prog = s.prog := rfl
@[simp] theorem advance_gteCorrected (s : State) : (advance s).gteCorrected = s.gteCorrected := rfl

theorem fetch_error_iff {s : State} {f : Failure} :
    fetch s = .error f ↔ f = .endOfProgram ∧ s.prog.length < s.pc.toNat + 4 := by
  unfold fetch
  split
  · simp; omega
  · simp [eq_comm]; omega

/-- The four bytes at the pc, as a list. -/
theorem fetch_ok_iff {s : State} {w : InstrBytes} :
    fetch s = .ok w ↔ s.pc.toNat + 4 ≤ s.prog.length ∧
      s.prog[s.pc.toNat]? = some w.op ∧ s.prog[s.pc.toNat + 1]? = some w.a ∧
      s.prog[s.pc.toNat + 2]? = some w.b ∧ s.prog[s.pc.toNat + 3]? = some w.c := by
  unfold fetch
  split
  · rename_i h
    rw [List.getElem?_eq_getElem (by omega), List.getElem?_eq_getElem (by omega),
      List.getElem?_eq_getElem (by omega), List.getElem?_eq_getElem (by omega)]
    cases w
    simp [h]
  · simp; omega

theorem decodeFetched_ok_iff {w : InstrBytes} {i : Instr} : decodeFetched w = .ok i ↔ decode w = .ok i := by
  unfold decodeFetched
  cases decode w <;> simp

theorem decodeFetched_error_iff {w : InstrBytes} {f : Failure} :
    decodeFetched w = .error f ↔ f = .invalidOpcode w.op ∧ 23 ≤ w.op.toNat := by
  unfold decodeFetched
  cases h : decode w with
  | ok i =>
    have : ¬ 23 ≤ w.op.toNat := fun h' => by
      rw [decode_error_iff.mpr ⟨rfl, h'⟩] at h; cases h
    simp [this]
  | error e =>
    have := (decode_error_iff.mp h).2
    simp [this, eq_comm]

theorem step_of_halted {s : State} {f : Failure} (h : s.status = .halted f) : step s = .fault (.halted f) := by
  simp [step, h]

theorem step_of_running {s : State} (h : s.status = .running) (hl : s.prog.length ≤ 65536) : step s = tick s := by
  simp [step, h, runningStep, State.streamFits, State.len, hl]

theorem step_of_too_long {s : State} (h : s.status = .running) (hl : 65536 < s.prog.length) :
    step s = .refused .streamTooLong := by
  simp [step, h, runningStep, State.streamFits, State.len, Nat.not_le.mpr hl]

/-- Everything a step that answers a next state can have done. -/
theorem step_cases {s t : State} (h : step s = .next t) :
    s.status = .running ∧ s.prog.length ≤ 65536 ∧
    ((fetch s = .error .endOfProgram ∧ t = s.raise .endOfProgram) ∨
     (∃ w, fetch s = .ok w ∧ 23 ≤ w.op.toNat ∧ t = (advance s).raise (.invalidOpcode w.op)) ∨
     (∃ w i, fetch s = .ok w ∧ decode w = .ok i ∧ exec i (advance s) = .next t ∧ Effect i (advance s) t)) := by
  cases hs : s.status with
  | halted f => simp [step_of_halted hs] at h
  | running =>
    by_cases hl : s.prog.length ≤ 65536
    · refine ⟨rfl, hl, ?_⟩
      rw [step_of_running hs hl, tick] at h
      cases hf : fetch s with
      | error f =>
        obtain ⟨rfl, -⟩ := fetch_error_iff.mp hf
        simp only [hf, Host.Outcome.next.injEq] at h
        exact .inl ⟨rfl, h.symm⟩
      | ok w =>
        simp only [hf, dispatchFetched] at h
        cases hd : decodeFetched w with
        | error f =>
          obtain ⟨rfl, hop⟩ := decodeFetched_error_iff.mp hd
          simp only [hd, Host.Outcome.next.injEq] at h
          exact .inr (.inl ⟨w, rfl, hop, h.symm⟩)
        | ok i =>
          simp only [hd] at h
          obtain ⟨u, hu, he⟩ := exec_cases i (advance s)
          obtain rfl : u = t := by simpa [hu] using h
          exact .inr (.inr ⟨w, i, rfl, decodeFetched_ok_iff.mp hd, hu, he⟩)
    · simp [step_of_too_long hs (Nat.not_le.mp hl)] at h

end Sys2Proof.Machine
end

