-- ==== Sys2Proof/Tests/Slice0.lean ====
section
/-! SUPPORT. Small tests. Every expected value is taken from spec/ (the vector's id is named); one step each. After them, for
each obligation with hypotheses, a witness that meets them. -/

namespace Sys2Proof.Tests.Slice0

open Sys2Proof Sys2Proof.Machine

/-! ## Helpers -/

/-- A running state with the stream `prog` and the listed registers set, everything else as reset leaves it. -/
def start (prog : List Byte) (regs : List (Fin 16 × Word)) : State :=
  regs.foldl (fun s q => s.setReg q.1 q.2) (State.construct prog)

/-- The next state exists and passes the check. -/
def after (o : Host.Outcome State Fault Refusal) (p : State → Bool) : Bool :=
  match o with
  | .next t => p t
  | .fault _ => false
  | .refused _ => false

/-- One step gives register `r` the value `v`, and the run goes on with the pc at 4. -/
def gives (prog : List Byte) (regs : List (Fin 16 × Word)) (r : Fin 16) (v : Word) : Bool :=
  after (step (start prog regs)) fun t => t.reg r == v && t.pc == 4 && t.status == .running

/-- One step halts with failure `f` at the advanced pc, and changes nothing else. -/
def halts (prog : List Byte) (regs : List (Fin 16 × Word)) (f : Failure) : Bool :=
  after (step (start prog regs)) fun t => t == ((start prog regs).setPc 4).raise f

/-! ## Well-formedness: one ill-formed term for each place of a register operand -/

theorem test_wf_refuses_operand_a : (Instr.add 16 0 0).wf = false ∧ (Instr.copy 16 0 0).wf = false ∧
    (Instr.loadimm 16 0 0).wf = false ∧ (Instr.load 16 0 0).wf = false ∧ (Instr.not 16 0 0).wf = false := by decide
theorem test_wf_refuses_operand_b : (Instr.add 0 16 0).wf = false ∧ (Instr.copy 0 16 0).wf = false ∧
    (Instr.not 0 16 0).wf = false := by decide
theorem test_wf_refuses_operand_c : (Instr.add 0 0 255).wf = false ∧ (Instr.store 0 0 16).wf = false ∧
    (Instr.jmpIfZero 0 0 16).wf = false := by decide
theorem test_wf_accepts_ignored_and_plain_bytes : (Instr.nop 255 255 255).wf = true ∧ (Instr.copy 15 15 255).wf = true ∧
    (Instr.loadimm 15 255 255).wf = true ∧ (Instr.jmp 255 255 255).wf = true ∧ (Instr.jr 255 255 255).wf = true := by decide
theorem test_canonical_clears_ignored_bytes : (Instr.copy 1 2 255).canonical = .copy 1 2 0 ∧
    (Instr.jmp 1 2 255).canonical = .jmp 1 2 0 ∧ (Instr.nop 1 2 3).canonical = .nop 0 0 0 ∧
    (Instr.store 1 2 3).canonical = .store 1 2 3 := by decide

/-! ## Decoding: one word for every constructor, written out from the encodings of files 40 to 46 -/


theorem test_decode_nop :
    decode ⟨0x00, 0xFF, 0xFF, 0xFF⟩ = .ok (.nop 255 255 255) :=
  rfl
theorem test_decode_arithmetic :
    decode ⟨0x01, 0x02, 0x00, 0x01⟩ = .ok (.add 2 0 1) ∧
    decode ⟨0x02, 0x00, 0x01, 0x02⟩ = .ok (.mul 0 1 2) ∧
    decode ⟨0x03, 0x00, 0x00, 0x02⟩ = .ok (.sub 0 0 2) ∧
    decode ⟨0x04, 0x08, 0x00, 0x09⟩ = .ok (.div 8 0 9) :=
  ⟨rfl, rfl, rfl, rfl⟩
theorem test_decode_move :
    decode ⟨0x05, 0x07, 0x03, 0x00⟩ = .ok (.copy 7 3 0) ∧
    decode ⟨0x06, 0x04, 0x12, 0x34⟩ = .ok (.loadimm 4 0x12 0x34) :=
  ⟨rfl, rfl⟩
theorem test_decode_load_store :
    decode ⟨0x07, 0x03, 0x01, 0x00⟩ = .ok (.load 3 0x01 0x00) ∧
    decode ⟨0x08, 0x1F, 0xFE, 0x00⟩ = .ok (.store 0x1F 0xFE 0) :=
  ⟨rfl, rfl⟩
theorem test_decode_compare :
    decode ⟨0x09, 0x00, 0x01, 0x02⟩ = .ok (.eq 0 1 2) ∧
    decode ⟨0x0A, 0x00, 0x01, 0x02⟩ = .ok (.neq 0 1 2) ∧
    decode ⟨0x0B, 0x04, 0x02, 0x00⟩ = .ok (.lt 4 2 0) ∧
    decode ⟨0x0C, 0x00, 0x01, 0x02⟩ = .ok (.lte 0 1 2) ∧
    decode ⟨0x0D, 0x02, 0x00, 0x01⟩ = .ok (.gt 2 0 1) ∧
    decode ⟨0x0E, 0x05, 0x00, 0x02⟩ = .ok (.gte 5 0 2) :=
  ⟨rfl, rfl, rfl, rfl, rfl, rfl⟩
theorem test_decode_jump :
    decode ⟨0x0F, 0x00, 0x0C, 0x00⟩ = .ok (.jmp 0x00 0x0C 0) ∧
    decode ⟨0x10, 0x00, 0x1C, 0x00⟩ = .ok (.jmpIfZero 0x00 0x1C 0) ∧
    decode ⟨0x11, 0xFF, 0xFF, 0xFF⟩ = .ok (.jr 255 255 255) ∧
    decode ⟨0x12, 0x00, 0x00, 0x01⟩ = .ok (.jrIfZero 0 0 1) :=
  ⟨rfl, rfl, rfl, rfl⟩
theorem test_decode_bitwise :
    decode ⟨0x13, 0x00, 0x01, 0x02⟩ = .ok (.and 0 1 2) ∧
    decode ⟨0x14, 0x00, 0x01, 0x02⟩ = .ok (.or 0 1 2) ∧
    decode ⟨0x15, 0x07, 0x00, 0x01⟩ = .ok (.xor 7 0 1) ∧
    decode ⟨0x16, 0x06, 0x02, 0x00⟩ = .ok (.not 6 2 0) :=
  ⟨rfl, rfl, rfl, rfl⟩
theorem test_decode_rejects_23_and_255 : decode ⟨23, 0, 0, 0⟩ = .error (.invalidOpcode 23) ∧
    decode ⟨255, 1, 2, 3⟩ = .error (.invalidOpcode 255) := ⟨rfl, rfl⟩
theorem test_decodeBytes_truncated : decodeBytes [0x06, 0x00] = .error .truncated := rfl
/-- The 32-bit numbering of opcode_table.json: the opcode in bits 31 to 24. -/
theorem test_decodeTableWord : decodeTableWord 32 0x01020001 = some (.add 2 0 1) ∧
    decodeTableWord 32 0x16000000 = some (.not 0 0 0) ∧ decodeTableWord 32 0x17000000 = none := by decide
/-- P1 of 95_test_vectors.md as a whole. -/
theorem test_decodeProgram_P1 : decodeProgram [6, 0, 0, 5, 6, 1, 0, 3, 1, 2, 0, 1, 0, 0, 0, 0] =
    .ok [.loadimm 0 0 5, .loadimm 1 0 3, .add 2 0 1, .nop 0 0 0] := rfl

/-! ## The step, the end test, nop (V-STEP) -/

theorem test_T1_empty_stream : after (step State.reset) (fun t => t == State.reset.raise .endOfProgram) = true := by decide
theorem test_T2_truncated : after (step (start [0, 0, 0] []))
    (fun t => t == (start [0, 0, 0] []).raise .endOfProgram) = true := by decide
theorem test_T5_nop : after (step (start [0x00, 0xFF, 0xFF, 0xFF] []))
    (fun t => t == (start [0x00, 0xFF, 0xFF, 0xFF] []).setPc 4) = true := by decide
/-- T6, second step: the end test does not wrap. -/
theorem test_T6_no_wrap_in_the_end_test : after (step ((start [0x0F, 0xFF, 0xFF, 0x00] []).setPc 65535))
    (fun t => t.pc == 65535 && t.status == .halted .endOfProgram) = true := by decide
/-- T8, step 16384: the advance from 65532 wraps to 0. -/
theorem test_T8_advance_wraps : (advance ((start [] []).setPc 65532)).pc = 0 := by decide
/-- P5, second step: a fetch at an offset that is not a multiple of 4. -/
theorem test_P5_unaligned_fetch :
    after (step ((start [0x0F, 0, 6, 0, 6, 1, 6, 2, 0, 7, 6, 3, 0x11, 0x22] []).setPc 6))
      (fun t => t.reg 2 == 7 && t.reg 1 == 0 && t.pc == 10) = true := by decide
theorem test_F1_invalid_opcode : halts [0x17, 0, 0, 0] [] (.invalidOpcode 23) = true := by decide
theorem test_F7_end_before_opcode : after (step (start [0x17, 0, 0] []))
    (fun t => t.pc == 0 && t.status == .halted .endOfProgram) = true := by decide
theorem test_halted_takes_no_step :
    step ((start [0, 0, 0, 0] []).raise .divisionByZero) = .fault (.halted .divisionByZero) := rfl
theorem test_withFetchWord_runs : after (step (State.reset.withFetchWord 32 0x06041234))
    (fun t => t.reg 4 == 0x1234 && t.pc == 4) = true := by decide

/-! ## Arithmetic (V-ARITH) -/

theorem test_A1_add_wraps_dst_is_src : gives [0x01, 0x03, 0x03, 0x03] [(3, 65535)] 3 65534 = true := by decide
theorem test_A8_add_bad_register : halts [0x01, 0x00, 0x10, 0x00] [] (.outOfRangeAccess (.reg 16)) = true := by decide
theorem test_mul_low_16_bits : gives [0x02, 0x00, 0x01, 0x02] [(1, 65535), (2, 65535)] 0 1 = true := by decide
theorem test_A2_mul : gives [0x02, 0x03, 0x03, 0x03] [(3, 300)] 3 24464 = true := by decide
theorem test_sub_wraps : gives [0x03, 0x00, 0x01, 0x02] [(1, 1), (2, 65535)] 0 2 = true := by decide
theorem test_sub_order : gives [0x03, 0x00, 0x01, 0x02] [(1, 65535), (2, 2)] 0 65533 = true := by decide
theorem test_div_unsigned : gives [0x04, 0x00, 0x01, 0x02] [(1, 65535), (2, 2)] 0 32767 = true := by decide
theorem test_A6_div_by_zero : halts [0x04, 0x00, 0x01, 0x02] [(1, 9), (0, 42)] (.divisionByZero) = true := by decide
theorem test_A7_div_register_check_first : halts [0x04, 0x10, 0x00, 0x01] [] (.outOfRangeAccess (.reg 16)) = true := by decide

/-! ## Move (V-MOVE) -/

theorem test_M1_copy : gives [0x05, 0x07, 0x03, 0x00] [(3, 0xBEEF)] 7 0xBEEF = true := by decide
theorem test_M2_copy_ignored_byte : gives [0x05, 0x01, 0x00, 0xFF] [(0, 7)] 1 7 = true := by decide
theorem test_M6_loadimm : gives [0x06, 0x04, 0x12, 0x34] [] 4 0x1234 = true := by decide
theorem test_M10_loadimm_bad_register : halts [0x06, 0x10, 0x00, 0x00] [] (.outOfRangeAccess (.reg 16)) = true := by decide

/-! ## Load and store (V-MEM) -/

theorem test_L4_store_at_8190 : after (step (start [0x08, 0x1F, 0xFE, 0x00] [(0, 0xABCD)]))
    (fun t => t.mem == [(8190, 0xAB), (8191, 0xCD)] && t.pc == 4) = true := by decide
/-- L5: nothing is written at 8191, whose old byte stays. -/
theorem test_L5_store_at_8191 : after (step ((start [0x08, 0x1F, 0xFF, 0x00] [(0, 0xAAAA)]).setMem [(8191, 0x77)]))
    (fun t => t.mem == [(8191, 0x77)] && t.pc == 4 &&
      t.status == .halted (.outOfRangeAccess (.mem 0x1FFF))) = true := by decide
theorem test_L2_load : after (step ((start [0x07, 0x03, 0x01, 0x00] []).setMem [(256, 0x12), (257, 0x34)]))
    (fun t => t.reg 3 == 0x1234 && t.mem == [(256, 0x12), (257, 0x34)]) = true := by decide
theorem test_F6_load_register_check_first : halts [0x07, 0x10, 0xFF, 0xFF] [] (.outOfRangeAccess (.reg 16)) = true := by
  decide
/-- L11, step 2: the overlapping store wins for the shared byte. -/
theorem test_L11_overlap : ((start [] []).mem.setByte 1 0x11 |>.setByte 2 0x22 |>.setByte 2 0x33 |>.setByte 3 0x44) =
    [(1, 0x11), (2, 0x33), (3, 0x44)] := by decide
theorem test_writing_zero_removes_the_entry : Memory.setByte [(1, 0x11), (2, 0x22)] 1 0 = [(2, 0x22)] := by decide

/-! ## Comparison (V-CMP) -/

theorem test_eq_replaces_the_whole_word : gives [0x09, 0x00, 0x01, 0x02] [(0, 0xFFFF), (1, 5), (2, 5)] 0 1 = true := by decide
theorem test_neq : gives [0x0A, 0x00, 0x01, 0x02] [(1, 7), (2, 8)] 0 1 = true := by decide
theorem test_lt_unsigned : gives [0x0B, 0x00, 0x01, 0x02] [(1, 32767), (2, 32768)] 0 1 = true := by decide
theorem test_K2_lt_equal : gives [0x0B, 0x03, 0x03, 0x03] [(3, 9)] 3 0 = true := by decide
theorem test_lte_equal : gives [0x0C, 0x00, 0x01, 0x02] [(1, 5), (2, 5)] 0 1 = true := by decide
theorem test_lte_unsigned : gives [0x0C, 0x00, 0x01, 0x02] [(1, 65535), (2, 0)] 0 0 = true := by decide
theorem test_gt_unsigned : gives [0x0D, 0x00, 0x01, 0x02] [(1, 65535), (2, 0)] 0 1 = true := by decide
theorem test_gte_default : gives [0x0E, 0x00, 0x01, 0x02] [(1, 3), (2, 5)] 0 1 = true := by decide
theorem test_gte_corrected :
    after (step { start [0x0E, 0x00, 0x01, 0x02] [(1, 5), (2, 3)] with gteCorrected := true })
      (fun t => t.reg 0 == 1) = true := by decide

/-! ## Jumps (V-JMP) -/

theorem test_J5_jmp_ignored_byte : after (step (start [0x0F, 0x00, 0x08, 0xFF] [])) (fun t => t.pc == 8) = true := by decide
theorem test_J1_jmpIfZero_taken : after (step (start [0x10, 0x00, 0x08, 0x00] [])) (fun t => t.pc == 8) = true := by decide
theorem test_J3_jmpIfZero_whole_word : after (step (start [0x10, 0x00, 0x08, 0x00] [(0, 0x0100)]))
    (fun t => t.pc == 4) = true := by decide
theorem test_J10_jr : halts [0x11, 0xFF, 0xFF, 0xFF] [] (.notImplemented 17) = true := by decide
theorem test_J9_jrIfZero : halts [0x12, 0x00, 0x00, 0x01] [(1, 9)] (.notImplemented 18) = true := by decide

/-! ## Bitwise (V-BIT) -/

theorem test_and : gives [0x13, 0x00, 0x01, 0x02] [(1, 0x1234), (2, 0x00FF)] 0 0x0034 = true := by decide
theorem test_or : gives [0x14, 0x00, 0x01, 0x02] [(1, 0x1234), (2, 0x00FF)] 0 0x12FF = true := by decide
theorem test_xor : gives [0x15, 0x00, 0x01, 0x02] [(1, 0x1234), (2, 0x00FF)] 0 0x12CB = true := by decide
theorem test_B4_not : gives [0x16, 0x00, 0x01, 0x00] [(1, 1)] 0 0xFFFE = true := by decide
theorem test_B2_not_bad_register : halts [0x16, 0x00, 0x10, 0x00] [] (.outOfRangeAccess (.reg 16)) = true := by decide

/-! ## Ports and the run loop -/

theorem test_observer_after_success : observerPort (start [0x06, 0x04, 0x12, 0x34] []) =
    some (4, (start [] [(4, 0x1234)]).regs) := by decide
theorem test_observer_silent_on_failure : observerPort (start [0x11, 0, 0, 0] []) = none := by decide
theorem test_reset_leaves_halted :
    (applyReset [0] ((start [0, 0, 0, 0] [(3, 9)]).raise .divisionByZero)) = State.construct [0] := by decide
/-- T3: `nop`, then the end of the stream; more fuel changes nothing. -/
theorem test_runLoop_T3 : after (runLoop 5 (start [0, 0, 0, 0] []))
    (fun t => t.pc == 4 && t.status == .halted .endOfProgram) = true := by decide

/-! ## Witnesses: the hypotheses of each obligation can be met, at a boundary of their range

Three register operands are met by `15, 0, 15` (registers equal or not, both ends), a bad one by 16 in each place. -/

/-- For every statement made with `WritesFromTwo` and `BadRegisterRaises`. -/
abbrev ThreeRegs : Prop :=
  (15#8).toNat = (15 : Fin 16).val ∧ (0#8).toNat = (0 : Fin 16).val ∧
  (16 ≤ (16#8).toNat ∨ 16 ≤ (0#8).toNat ∨ 16 ≤ (0#8).toNat) ∧ (16 ≤ (0#8).toNat ∨ 16 ≤ (16#8).toNat ∨ 16 ≤ (0#8).toNat) ∧
  (16 ≤ (0#8).toNat ∨ 16 ≤ (0#8).toNat ∨ 16 ≤ (16#8).toNat)

/-- The last four bytes of a stream of four: the step fetches `nop`. -/
theorem witness_NopChangesNothing : (start [0, 1, 2, 3] []).status = .running ∧ (start [0, 1, 2, 3] []).prog.length ≤ 65536 ∧
    (start [0, 1, 2, 3] []).pc.toNat + 4 ≤ (start [0, 1, 2, 3] []).prog.length ∧
    (start [0, 1, 2, 3] []).prog[(start [0, 1, 2, 3] []).pc.toNat]? = some 0x00 := by decide
theorem witness_AddWritesSumModulo65536 : ThreeRegs := by decide
theorem witness_MulWritesLow16BitsOfProduct : ThreeRegs := by decide
theorem witness_SubWritesDifferenceModulo65536 : ThreeRegs := by decide
theorem witness_ComparisonsWriteOneOrZero : ThreeRegs := by decide
/-- A divisor of 1 and a divisor of 0, in registers 15 and 14. -/
theorem witness_DivWritesFloorQuotientOrRaises : ThreeRegs ∧ (start [] [(15, 1)]).reg 15 ≠ 0#16 ∧
    (start [] [(15, 1)]).reg 14 = 0#16 ∧ (14#8).toNat = (14 : Fin 16).val := by decide
theorem witness_CopyWritesTheSourceWord : (15#8).toNat = (15 : Fin 16).val ∧ (0#8).toNat = (0 : Fin 16).val ∧
    16 ≤ (16#8).toNat ∧ (15#8).toNat < 16 := by decide
theorem witness_LoadimmWritesTheImmediate : (15#8).toNat = (15 : Fin 16).val ∧ 16 ≤ (16#8).toNat := by decide
/-- Address 8190 = 0x1FFE is the last that works, 8191 = 0x1FFF the first that fails. -/
theorem witness_LoadReadsTheBigEndianWord : (15#8).toNat = (15 : Fin 16).val ∧
    256 * (0x1F#8).toNat + (0xFE#8).toNat ≤ 8190 ∧ (15#8).toNat < 16 ∧ 8191 ≤ 256 * (0x1F#8).toNat + (0xFF#8).toNat ∧
    16 ≤ (16#8).toNat := by decide
theorem witness_StoreWritesTheBigEndianWord : (start [] [(15, 0xABCD)]).mem.wf ∧ (15#8).toNat = (15 : Fin 16).val ∧
    (word16 0x1F 0xFE).toNat ≤ 8190 ∧ (15#8).toNat < 16 ∧ 8191 ≤ (word16 0x1F 0xFF).toNat ∧ 16 ≤ (16#8).toNat := by decide
/-- Both values of the parameter. -/
theorem witness_GteIsLtUnlessCorrected : ThreeRegs ∧ (start [] []).gteCorrected = false ∧
    { start [] [] with gteCorrected := true }.gteCorrected = true := by decide
/-- A zero word, and a word whose low byte is zero but which is not. -/
theorem witness_JmpIfZeroTestsTheWholeWord : (15#8).toNat = (15 : Fin 16).val ∧ (start [] []).reg 15 = 0#16 ∧
    (start [] [(15, 0x0100)]).reg 15 ≠ 0#16 ∧ 16 ≤ (16#8).toNat := by decide
theorem witness_BitwiseWorkBitByBit : ThreeRegs ∧ (0 < 16 ∧ 15 < 16) ∧ (Instr.and 15 16 255).firstBadReg = some 16 ∧
    (Instr.or 16 0 0).firstBadReg = some 16 ∧ (Instr.xor 0 0 255).firstBadReg = some 255 ∧
    (Instr.not 0 16 255).firstBadReg = some 16 := by decide
theorem witness_ResetLeavesZeros : 0 < 8192 ∧ 8191 < 8192 := by decide
theorem witness_ResetMeetsTheInvariant : ([0, 0, 0, 0] : List Byte).length ≤ 65536 := by decide
theorem witness_MemReadIsBigEndianAndBounded : 8191 < (8191#16).toNat + 1 ∧ 8191 < (65535#16).toNat + 1 ∧
    (8190#16).toNat + 1 ≤ 8191 := by decide
theorem witness_StoreThenLoadReturnsTheWord : (start [] [(0, 0xABCD)]).mem.wf ∧ (0#8).toNat = (0 : Fin 16).val ∧
    (15#8).toNat = (15 : Fin 16).val ∧ 256 * (0x1F#8).toNat + (0xFE#8).toNat ≤ 8190 := by decide
/-- Addresses 0x00FF and 0x0100: the second store's address needs both bytes. -/
theorem witness_OverlappingStoresShareOneByte : (start [] []).mem.wf ∧ (1#8).toNat = (1 : Fin 16).val ∧
    (2#8).toNat = (2 : Fin 16).val ∧ (3#8).toNat = (3 : Fin 16).val ∧
    256 * (0x01#8).toNat + (0x00#8).toNat = 256 * (0x00#8).toNat + (0xFF#8).toNat + 1 ∧
    256 * (0x01#8).toNat + (0x00#8).toNat ≤ 8190 := by decide
theorem witness_CanonicalMemoryIsUnique : Memory.wf [(0, 1), (8191, 255)] ∧
    ∀ a, Memory.byte [(0, 1), (8191, 255)] a = Memory.byte [(0, 1), (8191, 255)] a := ⟨by decide, fun _ => rfl⟩
/-- The inner conditions: `add 1 2 3` names register 1 and not register 15; it is no `store` and no jump; and `store` to
0x1FFE leaves 8189 alone. -/
theorem witness_HandlersWriteOnlyTheirDestination : (start [] []).mem.wf ∧
    (∀ dst, (Instr.add 1 2 3).dstOperand = some dst → dst.toNat ≠ (15 : Fin 16).val) ∧
    (8189 ≠ (word16 0x1F 0xFE).toNat ∧ 8189 ≠ (word16 0x1F 0xFE).toNat + 1) ∧
    (∀ hi lo c : Byte, Instr.add 1 2 3 ≠ .jmp hi lo c ∧ Instr.add 1 2 3 ≠ .jmpIfZero hi lo c) ∧
    (start [] []).status = .running ∧ ((start [] []).raise .divisionByZero).status = .halted .divisionByZero := by
  refine ⟨by decide, ?_, by decide, ?_, rfl, rfl⟩
  · intro dst h
    obtain rfl : 1#8 = dst := Option.some.inj h
    decide
  · intro hi lo c
    exact ⟨nofun, nofun⟩
theorem witness_HandlerSucceedsExactlyWhenAllowed : (start [] []).status = .running := rfl
/-- `div 16 17 0` reports operand `a`, in a state where the divisor would be zero. -/
theorem witness_FirstBadRegisterOperandDecides : (Instr.div 16 17 0).firstBadReg = some 16 ∧
    (start [] []).status = .running ∧ ∃ t, exec (.div 16 17 0) (start [] []) = .next t ∧
      t.status = .halted (.outOfRangeAccess (.reg 16)) := ⟨by decide, rfl, _, rfl, rfl⟩
/-- Register 15 is the destination and no source; the other case is register 14, which is neither. -/
theorem witness_OnlySourceRegistersAreRead : (∀ b ∈ (Instr.add 15 0 1).srcOperands, b.toNat ≠ (15 : Fin 16).val) ∧
    (∀ b ∈ (Instr.add 15 0 1).srcOperands, b.toNat ≠ (14 : Fin 16).val) ∧
    ∃ t u, exec (.add 15 0 1) (start [] []) = .next t ∧ exec (.add 15 0 1) ((start [] []).setReg 15 7) = .next u :=
  ⟨by decide, by decide, _, _, rfl, rfl⟩
/-- A store to address 0 over two different memories, one of which holds a byte there. -/
theorem witness_OnlyLoadReadsMemory : (start [] [(1, 7)]).mem.wf ∧ Memory.wf [(0, 9), (5, 5)] ∧ (∀ d h l : Byte, Instr.store 0 0 1 ≠ .load d h l) ∧
    ∃ t u, exec (.store 0 0 1) (start [] [(1, 7)]) = .next t ∧
      exec (.store 0 0 1) ((start [] [(1, 7)]).setMem [(0, 9), (5, 5)]) = .next u := ⟨by decide, by decide, nofun, _, _, rfl, rfl⟩
theorem witness_GteCorrectedSelectsOnlyGte : (∀ d a b : Byte, Instr.lt 0 1 2 ≠ .gte d a b) ∧
    ∃ t u, exec (.lt 0 1 2) (start [] []) = .next t ∧
      exec (.lt 0 1 2) { start [] [] with gteCorrected := true } = .next u := ⟨nofun, _, _, rfl, rfl⟩
/-- A `jmp` at the last four bytes of the stream; its step succeeds. -/
theorem witness_PcIsAdvancedAndOnlyJumpsWriteIt :
    (start [0x0F, 0, 8, 0] []).status = .running ∧ (start [0x0F, 0, 8, 0] []).prog.length ≤ 65536 ∧
    fetch (start [0x0F, 0, 8, 0] []) = .ok ⟨0x0F, 0, 8, 0⟩ ∧ decode ⟨0x0F, 0, 8, 0⟩ = .ok (.jmp 0 8 0) ∧
    (∃ t u, exec (.jmp 0 8 0) (start [] []) = .next t ∧ exec (.jmp 0 8 0) ((start [] []).setPc 4) = .next u) ∧
    ∃ t, step (start [0x0F, 0, 8, 0] []) = .next t ∧ t.status ≠ .halted .endOfProgram :=
  ⟨rfl, by decide, rfl, rfl, ⟨_, _, rfl, rfl⟩, _, rfl, by decide⟩
/-- Two states that differ in memory; a store that is done and one whose address is out of range; a step; a load beside two
streams. -/
theorem witness_StreamIsNeverWrittenOrReadAsData :
    ((start [0, 0, 0, 0] []).setMem [(0, 1)]).prog = (start [0, 0, 0, 0] []).prog ∧
    ((start [0, 0, 0, 0] []).setMem [(0, 1)]).pc = (start [0, 0, 0, 0] []).pc ∧
    (∃ t, exec (.store 0x1F 0xFE 0) (start [0, 0, 0, 0] [(0, 0xABCD)]) = .next t ∧ t.status = .running) ∧
    (∃ t, exec (.store 0x1F 0xFF 0) (start [0, 0, 0, 0] []) = .next t ∧ t.status ≠ .running) ∧
    (∃ t, step (start [0x08, 0, 0, 0] [(0, 0xABCD)]) = .next t) ∧
    ∃ t u, exec (.load 0 0 0) (start [1] []) = .next t ∧ exec (.load 0 0 0) { start [1] [] with prog := [2] } = .next u :=
  ⟨rfl, rfl, ⟨_, rfl, by decide⟩, ⟨_, rfl, by decide⟩, ⟨_, rfl⟩, _, _, rfl, rfl⟩
theorem witness_EncodeOfDecodeIsTheBytes : decode ⟨22, 1, 2, 255⟩ = .ok (.not 1 2 255) := rfl
theorem witness_DecodeRejectsExactlyOpcodesFrom23 : 23 ≤ (InstrBytes.mk 23 0 0 0).op.toNat ∧ (22#8).toNat < 23 := by decide
/-- The program `nop; jmp`, at its second instruction and at its end. -/
theorem witness_StepRunsTheProgramsInstruction :
    (start (encodeProgram [.nop 0 0 0, .jmp 0 8 0]) []).status = .running ∧
    4 * [Instr.nop 0 0 0, .jmp 0 8 0].length ≤ 65536 ∧ [Instr.nop 0 0 0, .jmp 0 8 0][1]? = some (.jmp 0 8 0) ∧
    ((start (encodeProgram [.nop 0 0 0, .jmp 0 8 0]) []).setPc 4).pc.toNat = 4 * 1 ∧
    ((start (encodeProgram [.nop 0 0 0, .jmp 0 8 0]) []).setPc 8).pc.toNat = 4 * [Instr.nop 0 0 0, .jmp 0 8 0].length := by
  decide
theorem witness_WithFetchWordRunsTheWord : decodeTableWord 32 0x01020001 = some (.add 2 0 1) ∧
    ((start [] []).setPc 65532).pc.toNat + 4 ≤ 65536 := by decide
theorem witness_StepRunsTheDecodedInstruction :
    (start [9, 1, 2, 0, 1] []).status = .running ∧ (start [9, 1, 2, 0, 1] []).prog.length ≤ 65536 ∧
    ((start [9, 1, 2, 0, 1] []).setPc 1).pc.toNat + 4 ≤ (start [9, 1, 2, 0, 1] []).prog.length ∧
    (start [9, 1, 2, 0, 1] []).prog[1]? = some 1 ∧ (start [9, 1, 2, 0, 1] []).prog[1 + 1]? = some 2 ∧
    (start [9, 1, 2, 0, 1] []).prog[1 + 2]? = some 0 ∧ (start [9, 1, 2, 0, 1] []).prog[1 + 3]? = some 1 ∧
    decode ⟨1, 2, 0, 1⟩ = .ok (.add 2 0 1) := ⟨rfl, by decide, by decide, rfl, rfl, rfl, rfl, rfl⟩
/-- One byte too few. -/
theorem witness_StepPastTheStreamEndsTheRun : (start [0, 0, 0] []).status = .running ∧
    (start [0, 0, 0] []).prog.length ≤ 65536 ∧
    (start [0, 0, 0] []).prog.length < (start [0, 0, 0] []).pc.toNat + 4 := by decide
theorem witness_StepOnInvalidOpcodeRaises : (start [23, 0, 0, 0] []).status = .running ∧
    (start [23, 0, 0, 0] []).prog.length ≤ 65536 ∧
    (start [23, 0, 0, 0] []).pc.toNat + 4 ≤ (start [23, 0, 0, 0] []).prog.length ∧
    (start [23, 0, 0, 0] []).prog[(start [23, 0, 0, 0] []).pc.toNat]? = some 23 ∧ 23 ≤ (23#8).toNat := by decide
theorem witness_HaltedUnitTakesNoStep : ((start [] []).raise .endOfProgram).status = .halted .endOfProgram := rfl
/-- A stream one byte longer than the bound. -/
theorem witness_TooLongStreamIsRefused : (State.construct (List.replicate 65537 0)).status = .running ∧
    65536 < (State.construct (List.replicate 65537 0)).prog.length := by
  refine ⟨rfl, ?_⟩
  rw [State.construct_prog, List.length_replicate]
  omega
/-- The longest stream. -/
theorem witness_RunningUnitAlwaysHasAStep : (State.construct (List.replicate 65536 0)).status = .running ∧
    (State.construct (List.replicate 65536 0)).prog.length ≤ 65536 := by
  refine ⟨rfl, ?_⟩
  rw [State.construct_prog, List.length_replicate]
/-- A step that ends the run, and one that fails after the fetch. -/
theorem witness_FailingStepWritesOnlyStatusAndPc :
    (∃ t, step (start [] []) = .next t ∧ t.status = .halted .endOfProgram) ∧
    ∃ t, step (start [0x04, 0, 0, 0] []) = .next t ∧ t.status = .halted .divisionByZero :=
  ⟨⟨_, rfl, rfl⟩, _, rfl, rfl⟩
theorem witness_StepKeepsTheInvariant : StateInv (start [0x08, 0, 0, 0] [(0, 0xABCD)]) ∧
    ∃ t, step (start [0x08, 0, 0, 0] [(0, 0xABCD)]) = .next t ∧ t.mem = [(0, 0xAB), (1, 0xCD)] :=
  ⟨⟨by decide, by decide⟩, _, rfl, by decide⟩
/-- The stream `jmp 0x0008`, whose one target is a multiple of 4. -/
theorem witness_StepKeepsThePcAligned : TargetsAligned [0x0F, 0, 8, 0] ∧ (start [0x0F, 0, 8, 0] []).pc.toNat % 4 = 0 ∧
    ∃ t, step (start [0x0F, 0, 8, 0] []) = .next t ∧ t.pc = 8 := by
  refine ⟨fun k i hi lo c h hj => ?_, by decide, _, rfl, by decide⟩
  cases k with
  | zero =>
    obtain rfl : Instr.jmp 0 8 0 = i := by injection h
    rcases hj with hj | hj
    · injection hj with _ h2 _
      subst h2
      decide
    · cases hj
  | succ k =>
    rw [List.drop_of_length_le (by simp only [List.length_cons, List.length_nil]; omega)] at h
    cases h
theorem witness_RunLoopIsNeverStuck : StateInv (start [0, 0, 0, 0] []) := ⟨by decide, by decide⟩
/-- A run that has halted, and one whose fuel ends first. -/
theorem witness_RunLoopHaltIsFinal :
    (∃ t, runLoop 2 (start [0, 0, 0, 0] []) = .next t ∧ t.status = .halted .endOfProgram) ∧
    ∃ t, runLoop 1 (start [0, 0, 0, 0] []) = .next t ∧ t.status = .running := ⟨⟨_, rfl, rfl⟩, _, rfl, rfl⟩
theorem witness_ObserverPortShowsSuccessfulSteps :
    (∃ t, step (start [0, 0, 0, 0] []) = .next t ∧ t.status = .running) ∧
    (∃ t, step (start [] []) = .next t ∧ t.status = .halted .endOfProgram) ∧
    ((start [] []).raise .endOfProgram).status = .halted .endOfProgram := ⟨⟨_, rfl, rfl⟩, ⟨_, rfl, rfl⟩, rfl⟩
theorem witness_StatusPortCodes : (start [] []).status = .running ∧
    ((start [] []).raise .endOfProgram).status = .halted .endOfProgram ∧
    ((start [] []).raise (.invalidOpcode 23)).status = .halted (.invalidOpcode 23) ∧
    ((start [] []).raise .divisionByZero).status = .halted .divisionByZero ∧
    ((start [] []).raise (.outOfRangeAccess (.reg 16))).status = .halted (.outOfRangeAccess (.reg 16)) ∧
    ((start [] []).raise (.notImplemented 17)).status = .halted (.notImplemented 17) := ⟨rfl, rfl, rfl, rfl, rfl, rfl⟩

end Sys2Proof.Tests.Slice0
end

/-! ## The scope of the unit (spec/00_scope.md): the parameter `GTE_CORRECTED`, and the state after reset -/

namespace Sys2Proof.Machine

/-- One effect, had in a state and in the same state with `GTE_CORRECTED` set to `g`, gives results that differ in that
parameter only: no effect reads or writes it. -/
theorem SameEffect.eq_with_gteCorrected {i : Instr} {s t u : State} {g : Bool}
    (h : SameEffect i s { s with gteCorrected := g } t u) : u = { t with gteCorrected := g } := by
  cases h with
  | unchanged => rfl
  | register => rfl
  | memory => rfl
  | jump => rfl
  | failure => rfl

/-- An instruction other than `gte` has the same effect whatever `GTE_CORRECTED` is (R7, R135). -/
theorem exec_with_gteCorrected {i : Instr} (s : State) (g : Bool) (hi : ∀ dst src1 src2, i ≠ .gte dst src1 src2) :
    ∃ t, exec i s = .next t ∧ exec i { s with gteCorrected := g } = .next { t with gteCorrected := g } := by
  obtain ⟨t, u, ht, hu, same⟩ :=
    exec_agree (s := s) (s' := { s with gteCorrected := g }) (fun _ _ _ _ => rfl) (.inr rfl) (.inl hi)
  exact ⟨t, ht, same.eq_with_gteCorrected ▸ hu⟩

/-- Settles O30: the answer in the state with the other parameter value is the one `exec_with_gteCorrected` names. -/
theorem gteCorrectedSelectsOnlyGte : Obligations.GteCorrectedSelectsOnlyGte := by
  unfold Obligations.GteCorrectedSelectsOnlyGte
  intro i s t u g hi ht hu
  obtain ⟨t', ht', hu'⟩ := exec_with_gteCorrected s g hi
  obtain rfl : t' = t := Host.Outcome.next.inj (ht'.symm.trans ht)
  exact Host.Outcome.next.inj (hu.symm.trans hu')

/-- A reset that hands over a stream the spec allows (R8) meets the invariant. -/
theorem stateInv_construct {prog : List Byte} (h : prog.length ≤ 65536) : StateInv (State.construct prog) :=
  ⟨Memory.nil_wf, h⟩

/-- Settles O18, from the canonical form of the empty memory and the bound on the stream. -/
theorem resetMeetsTheInvariant : Obligations.ResetMeetsTheInvariant := by
  unfold Obligations.ResetMeetsTheInvariant
  exact ⟨stateInv_construct (Nat.zero_le _), rfl, rfl, fun _ => stateInv_construct⟩

end Sys2Proof.Machine

/-! ## The state of the unit (spec/10_state.md): what an instruction and a step keep, and what an instruction reads -/

namespace Sys2Proof.Machine

/-! ### What one effect leaves unchanged -/

/-- The bytes of a state whose memory is a canonical one with the word `v` stored at `a` (R40). -/
theorem State.byte_of_stored {t : State} {m : Memory} {a : Nat} {v : Word} (hm : m.wf) (ha : a ≤ 8190)
    (h : t.mem = m.setWord a v) (b : Nat) :
    t.byte b = if b = a then hiByte v else if b = a + 1 then loByte v else m.byte b := by
  rw [State.byte, h, Memory.byte_setWord hm ha]

section
variable {i : Instr} {s t : State}

/-- No effect writes a parameter (R7, R8, R29). -/
theorem Effect.sameParams (h : Effect i s t) : SameParams s t := by
  cases h with
  | unchanged | register | memory | jump | failure => exact ⟨rfl, rfl⟩

/-- An effect writes no register but the one its destination operand names (R22). -/
theorem Effect.reg_eq (h : Effect i s t) {r : Fin 16} (hr : ∀ dst, i.dstOperand = some dst → dst.toNat ≠ r.val) :
    t.reg r = s.reg r := by
  cases h with
  | register dst d v hi hd =>
    have hne : r ≠ d := fun e => hr dst hi (e ▸ hd)
    exact State.reg_setReg_other s hne v
  | unchanged | memory | jump | failure => rfl

/-- An effect writes no byte but the two that a `store` addresses (R26). -/
theorem Effect.byte_eq (h : Effect i s t) (hwf : s.mem.wf) {a : Nat}
    (ha : ∀ addrHi addrLo src, i = .store addrHi addrLo src →
      a ≠ (word16 addrHi addrLo).toNat ∧ a ≠ (word16 addrHi addrLo).toNat + 1) :
    t.byte a = s.byte a := by
  cases h with
  | memory hi lo src r h hr hle =>
    obtain ⟨hne, hne'⟩ := ha hi lo src h
    rw [State.byte_of_stored hwf hle rfl, if_neg hne, if_neg hne']
    rfl
  | unchanged | register | jump | failure => rfl

/-- An effect keeps the canonical form of the memory: a `store` writes at most up to address 8191 (R26). -/
theorem Effect.mem_wf (h : Effect i s t) (hwf : s.mem.wf) : t.mem.wf := by
  cases h with
  | memory hi lo src r h hr hle => exact Memory.setWord_wf hwf hle _
  | unchanged | register | jump | failure => exact hwf

/-- An effect keeps the pc, or loads the target of the jump executed (R24). -/
theorem Effect.pc_cases (h : Effect i s t) :
    t.pc = s.pc ∨ ∃ addrHi addrLo c, (i = .jmp addrHi addrLo c ∨ i = .jmpIfZero addrHi addrLo c) ∧
      t.pc = word16 addrHi addrLo := by
  cases h with
  | jump hi lo c hj => exact .inr ⟨hi, lo, c, hj, rfl⟩
  | unchanged | register | memory | failure => exact .inl rfl

/-- An effect that halts a running unit writes nothing but the status (R166). -/
theorem Effect.eq_raise (h : Effect i s t) {f : Failure} (hs : s.status = .running) (ht : t.status = .halted f) :
    t = s.raise f := by
  cases h with
  | failure g hg =>
    obtain rfl : g = f := Status.halted.inj ht
    rfl
  | unchanged | register | memory | jump => exact nomatch hs.symm.trans ht

end

/-! ### What a step keeps -/

section
variable {s t : State} {w : InstrBytes}

/-- The step of a fetched and decoded instruction is its handler in the advanced state (R80, R83, R84). -/
theorem step_of_decoded {i : Instr} (hs : s.status = .running) (hl : s.prog.length ≤ 65536) (hf : fetch s = .ok w)
    (hd : decode w = .ok i) : step s = exec i (advance s) := by
  rw [step_of_running hs hl]
  simp [tick, hf, dispatchFetched, decodeFetched, hd]

/-- No step writes a parameter (R7, R8). -/
theorem step_sameParams (h : step s = .next t) : SameParams s t := by
  obtain ⟨-, -, ⟨-, rfl⟩ | ⟨w, -, -, rfl⟩ | ⟨w, i, -, -, -, he⟩⟩ := step_cases h
  · exact ⟨rfl, rfl⟩
  · exact ⟨rfl, rfl⟩
  · exact he.sameParams

/-- A step keeps the canonical form of the memory (R26, R28). -/
theorem step_mem_wf (h : step s = .next t) (hwf : s.mem.wf) : t.mem.wf := by
  obtain ⟨-, -, ⟨-, rfl⟩ | ⟨w, -, -, rfl⟩ | ⟨w, i, -, -, -, he⟩⟩ := step_cases h
  · exact hwf
  · exact hwf
  · exact he.mem_wf hwf

/-- The pc after a step: kept where the stream ends, else advanced, or the target of the jump fetched (R24). -/
theorem step_pc_cases (h : step s = .next t) :
    (t.status = .halted .endOfProgram ∧ t.pc = s.pc) ∨ t.pc = s.pc + 4 ∨
      ∃ w addrHi addrLo c, fetch s = .ok w ∧
        (decode w = .ok (.jmp addrHi addrLo c) ∨ decode w = .ok (.jmpIfZero addrHi addrLo c)) ∧
        t.pc = word16 addrHi addrLo := by
  obtain ⟨-, -, ⟨-, rfl⟩ | ⟨w, -, -, rfl⟩ | ⟨w, i, hf, hd, -, he⟩⟩ := step_cases h
  · exact .inl ⟨rfl, rfl⟩
  · exact .inr (.inl rfl)
  · obtain hpc | ⟨hi, lo, c, rfl | rfl, hpc⟩ := he.pc_cases
    · exact .inr (.inl hpc)
    · exact .inr (.inr ⟨w, hi, lo, c, hf, .inl hd, hpc⟩)
    · exact .inr (.inr ⟨w, hi, lo, c, hf, .inr hd, hpc⟩)

/-- The bytes fetched are those at the head of the stream from the pc on (R82). -/
theorem drop_pc_of_fetch (h : fetch s = .ok w) :
    s.prog.drop s.pc.toNat = w.toList ++ s.prog.drop (s.pc.toNat + 4) := by
  obtain ⟨-, hop, ha, hb, hc⟩ := fetch_ok_iff.mp h
  have drop_cons {k : Nat} {b : Byte} (hk : s.prog[k]? = some b) : s.prog.drop k = b :: s.prog.drop (k + 1) := by
    obtain ⟨hlt, rfl⟩ := List.getElem?_eq_some_iff.mp hk
    exact List.drop_eq_getElem_cons hlt
  rw [drop_cons hop, drop_cons ha, drop_cons hb, drop_cons hc]
  rfl

/-- A jump fetched at a multiple of 4 from an aligned stream has a target that is a multiple of 4. -/
theorem target_aligned_of_fetch {addrHi addrLo c : Byte} (hal : TargetsAligned s.prog) (hpc : s.pc.toNat % 4 = 0)
    (hf : fetch s = .ok w)
    (hd : decode w = .ok (.jmp addrHi addrLo c) ∨ decode w = .ok (.jmpIfZero addrHi addrLo c)) :
    (word16 addrHi addrLo).toNat % 4 = 0 := by
  have hdec : decodeBytes (s.prog.drop (4 * (s.pc.toNat / 4))) = decode w := by
    rw [Nat.mul_div_cancel' (Nat.dvd_of_mod_eq_zero hpc), drop_pc_of_fetch hf, decodeBytes_toList_append]
  have hlo : addrLo.toNat % 4 = 0 := by
    obtain hd | hd := hd
    · exact hal _ _ addrHi addrLo c (hdec.trans hd) (.inl rfl)
    · exact hal _ _ addrHi addrLo c (hdec.trans hd) (.inr rfl)
  rw [word16_toNat]
  omega

/-- The advance keeps a multiple of 4, at the wrap too: 65536 is one (R25). -/
theorem advance_aligned {p : Word} (h : p.toNat % 4 = 0) : (p + 4).toNat % 4 = 0 := by
  rw [BitVec.toNat_add]
  have h4 : (4 : Word).toNat = 4 := rfl
  omega

end

/-- Settles O48: memory by `step_mem_wf`; the stream is a parameter and stays. -/
theorem stepKeepsTheInvariant : Obligations.StepKeepsTheInvariant := by
  unfold Obligations.StepKeepsTheInvariant
  rintro s t ⟨hwf, hlen⟩ h
  obtain ⟨hprog, -⟩ := step_sameParams h
  exact ⟨step_mem_wf h hwf, hprog ▸ hlen⟩

/-- Settles O49, by the three places the pc can be after a step. -/
theorem stepKeepsThePcAligned : Obligations.StepKeepsThePcAligned := by
  unfold Obligations.StepKeepsThePcAligned
  intro s t hal hpc h
  obtain ⟨hprog, -⟩ := step_sameParams h
  refine ⟨hprog ▸ hal, ?_⟩
  obtain ⟨-, e⟩ | e | ⟨w, hi, lo, c, hf, hd, e⟩ := step_pc_cases h
  · rw [e]; exact hpc
  · rw [e]; exact advance_aligned hpc
  · rw [e]; exact target_aligned_of_fetch hal hpc hf hd

/-! ### The canonical form of the memory -/

section
variable {k l : Nat} {u v : Byte} {m n : Memory}

@[simp] theorem Memory.byte_head : Memory.byte ((k, u) :: m) k = u := by simp [Memory.byte]

/-- The tail of a canonical memory reads as the whole, but for the head's address. -/
theorem Memory.byte_tail (h : Memory.wf ((k, u) :: m)) (a : Nat) :
    Memory.byte m a = if a = k then 0#8 else Memory.byte ((k, u) :: m) a := by
  by_cases ha : a = k
  · subst ha
    rw [if_pos rfl]
    exact Memory.byte_eq_zero_of_lt (Memory.wf_head_lt h)
  · simp [Memory.byte, ha, Ne.symm ha]

/-- The head of a canonical memory does not read as 0. -/
theorem Memory.byte_head_ne_zero (h : Memory.wf ((k, u) :: m)) : Memory.byte ((k, u) :: m) k ≠ 0#8 := by
  rw [Memory.byte_head]
  exact (h.2 (k, u) (by simp)).2

/-- Of two canonical memories that read the same, neither starts above the other. -/
theorem Memory.head_le_of_byte_eq (hm : Memory.wf ((k, u) :: m)) (hn : Memory.wf ((l, v) :: n))
    (h : ∀ a, Memory.byte ((k, u) :: m) a = Memory.byte ((l, v) :: n) a) : l ≤ k := by
  refine Nat.le_of_not_lt fun hlt => ?_
  have hzero : Memory.byte ((l, v) :: n) k = 0#8 := Memory.byte_eq_zero_of_lt fun c hc => by
    obtain rfl | hc := List.mem_cons.mp hc
    · exact hlt
    · exact hlt.trans (Memory.wf_head_lt hn c hc)
  exact Memory.byte_head_ne_zero hm ((h k).trans hzero)

end

/-- Canonical memories that read the same are equal: their heads are the lowest address that does not read as 0. -/
theorem Memory.eq_of_byte_eq {m n : Memory} (hm : m.wf) (hn : n.wf) (h : ∀ a, m.byte a = n.byte a) : m = n := by
  induction m generalizing n with
  | nil =>
    cases n with
    | nil => rfl
    | cons d n => exact absurd (h d.1).symm (Memory.byte_head_ne_zero hn)
  | cons c m ih =>
    cases n with
    | nil => exact absurd (h c.1) (Memory.byte_head_ne_zero hm)
    | cons d n =>
      obtain ⟨k, u⟩ := c
      obtain ⟨l, v⟩ := d
      obtain rfl : k = l :=
        Nat.le_antisymm (Memory.head_le_of_byte_eq hn hm fun a => (h a).symm) (Memory.head_le_of_byte_eq hm hn h)
      obtain rfl : u = v := by simpa using h k
      have htail : m = n := ih (Memory.wf_tail hm) (Memory.wf_tail hn) fun a => by
        rw [Memory.byte_tail hm, Memory.byte_tail hn, h]
      rw [htail]

/-- Settles O23: this is `Memory.eq_of_byte_eq`, an induction over the two lists. -/
theorem canonicalMemoryIsUnique : Obligations.CanonicalMemoryIsUnique := by
  unfold Obligations.CanonicalMemoryIsUnique
  exact fun _ _ => Memory.eq_of_byte_eq

/-- Settles O24: each clause is what every effect keeps. -/
theorem handlersWriteOnlyTheirDestination : Obligations.HandlersWriteOnlyTheirDestination := by
  unfold Obligations.HandlersWriteOnlyTheirDestination
  intro i s hwf
  obtain ⟨t, ht, he⟩ := exec_cases i s
  refine ⟨t, ht, fun _ => he.reg_eq, fun _ => he.byte_eq hwf, fun hnojump => ?_, he.sameParams,
    fun _ => he.eq_raise⟩
  obtain hpc | ⟨hi, lo, c, hj, -⟩ := he.pc_cases
  · exact hpc
  · exact absurd hj (not_or.mpr (hnojump hi lo c))

/-! ### What an instruction reads -/

/-- `exec_agree` for two answers that are given: they are one effect, had in both states. -/
theorem sameEffect_of_exec {i : Instr} {s s' t u : State} (ht : exec i s = .next t) (hu : exec i s' = .next u)
    (hr : ∀ b ∈ i.srcOperands, ∀ r : Fin 16, b.toNat = r.val → s'.reg r = s.reg r)
    (hm : (∀ dst addrHi addrLo, i ≠ .load dst addrHi addrLo) ∨ s'.mem = s.mem)
    (hg : (∀ dst src1 src2, i ≠ .gte dst src1 src2) ∨ s'.gteCorrected = s.gteCorrected) :
    SameEffect i s s' t u := by
  obtain ⟨t', u', ht', hu', same⟩ := exec_agree hr hm hg
  obtain rfl : t' = t := Host.Outcome.next.inj (ht'.symm.trans ht)
  obtain rfl : u' = u := Host.Outcome.next.inj (hu'.symm.trans hu)
  exact same

section
variable {i : Instr} {s s' t u : State}

/-- An effect had in two states leaves a register as it is in each, or writes one word in both (R22). -/
theorem SameEffect.reg_cases (h : SameEffect i s s' t u) (q : Fin 16) :
    (t.reg q = s.reg q ∧ u.reg q = s'.reg q) ∨ u.reg q = t.reg q := by
  cases h with
  | register dst d v hi hd =>
    by_cases hq : q = d
    · subst hq
      exact .inr (by simp)
    · exact .inl ⟨State.reg_setReg_other s hq v, State.reg_setReg_other s' hq v⟩
  | unchanged | memory | jump | failure => exact .inl ⟨rfl, rfl⟩

/-- A register that two states agree on is the same after an effect had in both. -/
theorem SameEffect.reg_eq (h : SameEffect i s s' t u) {q : Fin 16} (hq : s'.reg q = s.reg q) :
    u.reg q = t.reg q := by
  obtain ⟨ht, hu⟩ | e := h.reg_cases q
  · rw [hu, ht, hq]
  · exact e

/-- An effect had in two states leaves the pc as it is in each, or loads one target in both (R24). -/
theorem SameEffect.pc_cases (h : SameEffect i s s' t u) :
    (t.pc = s.pc ∧ u.pc = s'.pc) ∨
      ∃ addrHi addrLo c, (i = .jmp addrHi addrLo c ∨ i = .jmpIfZero addrHi addrLo c) ∧
        t.pc = word16 addrHi addrLo ∧ u.pc = word16 addrHi addrLo := by
  cases h with
  | jump hi lo c hj => exact .inr ⟨hi, lo, c, hj, rfl, rfl⟩
  | unchanged | register | memory | failure => exact .inl ⟨rfl, rfl⟩

theorem SameEffect.pc_eq (h : SameEffect i s s' t u) (hp : s'.pc = s.pc) : u.pc = t.pc := by
  obtain ⟨ht, hu⟩ | ⟨_, _, _, -, ht, hu⟩ := h.pc_cases
  · rw [hu, ht, hp]
  · rw [hu, ht]

/-- An effect had in two states leaves the memory of each, or stores one word at one address in both (R26, R47). -/
theorem SameEffect.mem_cases (h : SameEffect i s s' t u) :
    (t.mem = s.mem ∧ u.mem = s'.mem) ∨
      ∃ addrHi addrLo src v, i = .store addrHi addrLo src ∧ (word16 addrHi addrLo).toNat ≤ 8190 ∧
        t.mem = s.mem.setWord (word16 addrHi addrLo).toNat v ∧
        u.mem = s'.mem.setWord (word16 addrHi addrLo).toNat v := by
  cases h with
  | memory hi lo src v hi' ha => exact .inr ⟨hi, lo, src, v, hi', ha, rfl, rfl⟩
  | unchanged | register | jump | failure => exact .inl ⟨rfl, rfl⟩

theorem SameEffect.mem_eq (h : SameEffect i s s' t u) (hm : s'.mem = s.mem) : u.mem = t.mem := by
  obtain ⟨ht, hu⟩ | ⟨_, _, _, v, -, -, ht, hu⟩ := h.mem_cases
  · rw [hu, ht, hm]
  · rw [hu, ht, hm]

theorem SameEffect.status_eq (h : SameEffect i s s' t u) (hs : s'.status = s.status) : u.status = t.status := by
  cases h with
  | failure => rfl
  | unchanged | register | memory | jump => exact hs

theorem SameEffect.sameParams (h : SameEffect i s s' t u) (hp : SameParams s s') : SameParams t u := by
  cases h with
  | unchanged | register | memory | jump | failure => exact hp

end

/-- Settles O28: the two states agree on every register but `r`, so they have the same effect. -/
theorem onlySourceRegistersAreRead : Obligations.OnlySourceRegistersAreRead := by
  unfold Obligations.OnlySourceRegistersAreRead
  intro i s t u r v hsrc ht hu
  have same := sameEffect_of_exec ht hu
    (fun b hb q hq => State.reg_setReg_other s (fun e : q = r => hsrc b hb (e ▸ hq)) v) (.inr rfl) (.inr rfl)
  refine ⟨fun q hq => same.reg_eq (State.reg_setReg_other s hq v), ?_, same.pc_eq rfl, same.mem_eq rfl,
    same.status_eq rfl, same.sameParams ⟨rfl, rfl⟩⟩
  simpa using same.reg_cases r

/-- Settles O29: the two states agree on all but the memory, which only `load` reads. -/
theorem onlyLoadReadsMemory : Obligations.OnlyLoadReadsMemory := by
  unfold Obligations.OnlyLoadReadsMemory
  intro i s t u m hs hm hi ht hu
  have same := sameEffect_of_exec ht hu (fun _ _ _ _ => rfl) (.inl hi) (.inr rfl)
  refine ⟨fun _ => same.reg_eq rfl, same.pc_eq rfl, same.status_eq rfl, same.sameParams ⟨rfl, rfl⟩, ?_⟩
  obtain keeps | ⟨hi, lo, src, v, e, ha, et, eu⟩ := same.mem_cases
  · exact .inl keeps
  · have bt := State.byte_of_stored hs ha et
    have bu := State.byte_of_stored hm ha eu
    refine .inr ⟨hi, lo, src, e, by simp [bt, bu], by simp [bt, bu], fun a h0 h1 => ?_⟩
    rw [bt, bu, if_neg h0, if_neg h1, if_neg h0, if_neg h1]
    exact ⟨rfl, rfl⟩

/-- No instruction reads the pc: run from another pc, its answer differs in the pc at most (R24). -/
theorem SameEffect.eq_setPc {i : Instr} {s t u : State} {q : Word} (h : SameEffect i s (s.setPc q) t u) :
    u = t.setPc u.pc := by
  cases h with
  | unchanged | register | memory | jump | failure => rfl

/-- Settles O31: the step is the handler in `advance s`; an effect in two states that differ in the pc; the pc after a
step. -/
theorem pcIsAdvancedAndOnlyJumpsWriteIt : Obligations.PcIsAdvancedAndOnlyJumpsWriteIt := by
  unfold Obligations.PcIsAdvancedAndOnlyJumpsWriteIt
  refine ⟨fun s w i hs hl hf hd => ⟨advance s, rfl, step_of_decoded hs hl hf hd⟩, fun i s t u q ht hu => ?_,
    fun s t h hend => ?_⟩
  · have same := sameEffect_of_exec ht hu (fun _ _ _ _ => rfl) (.inr rfl) (.inr rfl)
    exact ⟨same.eq_setPc, same.pc_cases⟩
  · obtain ⟨e, -⟩ | pc := step_pc_cases h
    · exact absurd e hend
    · exact pc

/-! ### Reset and the registers -/

/-- What reset leaves, whatever the stream it is handed (R32). -/
theorem asResetLeavesIt_construct (prog : List Byte) : AsResetLeavesIt (State.construct prog) :=
  ⟨State.construct_reg prog, fun k _ => State.construct_byte prog k, State.construct_pc prog,
    State.construct_status prog⟩

/-- Settles O16: `State.reset` is the reset that hands over the empty stream. -/
theorem resetLeavesZeros : Obligations.ResetLeavesZeros := by
  unfold Obligations.ResetLeavesZeros
  exact ⟨asResetLeavesIt_construct, asResetLeavesIt_construct []⟩

/-- Settles O19, by the rules of `setReg` and `setPc`: none of them singles out a register. -/
theorem registersAreIndependent : Obligations.RegistersAreIndependent := by
  unfold Obligations.RegistersAreIndependent
  intro s d r v
  exact ⟨State.reg_setReg s d r v, State.setReg_pc s d v, State.setPc_reg s v r⟩

end Sys2Proof.Machine

/-! ## The data memory (spec/20_memory.md): the 2-byte accesses, and its separation from the instruction stream -/

namespace Sys2Proof.Machine

/-- Settles O20: the bound of the two rules of `memRead`, and the word of its two bytes. -/
theorem memReadIsBigEndianAndBounded : Obligations.MemReadIsBigEndianAndBounded := by
  unfold Obligations.MemReadIsBigEndianAndBounded
  exact fun s addr => ⟨fun h => memRead_error (by omega),
    fun h => ⟨_, memRead_ok (by omega), word16_toNat _ _⟩⟩

/-! ### A word read after stores -/

section
variable {m : Memory} {a : Nat}

/-- The word at `a`, high byte first (R40). -/
def Memory.word (m : Memory) (a : Nat) : Word := word16 (m.byte a) (m.byte (a + 1))

/-- A stored word reads back (R48). -/
theorem Memory.word_setWord_same (h : m.wf) (ha : a ≤ 8190) (v : Word) : (m.setWord a v).word a = v := by
  simp [Memory.word, Memory.byte_setWord h ha]

/-- A later store one byte above replaces the low byte by its high byte. -/
theorem Memory.word_setWord_above (h : m.wf) (ha : a + 1 ≤ 8190) (v w : Word) :
    (((m.setWord a v).setWord (a + 1) w).word a).toNat = 256 * (v.toNat / 256) + w.toNat / 256 := by
  have hle : a ≤ 8190 := by omega
  have hne : a ≠ a + 1 + 1 := by omega
  simp [Memory.word, Memory.byte_setWord (Memory.setWord_wf h hle v) ha, Memory.byte_setWord h hle, hne,
    word16_toNat, hiByte_toNat]

/-- A later store one byte below replaces the high byte by its low byte. -/
theorem Memory.word_setWord_below (h : m.wf) (ha : a + 1 ≤ 8190) (v w : Word) :
    (((m.setWord (a + 1) w).setWord a v).word (a + 1)).toNat = 256 * (v.toNat % 256) + w.toNat % 256 := by
  have hle : a ≤ 8190 := by omega
  have hne : a + 1 + 1 ≠ a := by omega
  simp [Memory.word, Memory.byte_setWord (Memory.setWord_wf h ha w) hle, Memory.byte_setWord h ha, hne,
    word16_toNat, loByte_toNat]

end

section
variable {hi lo src dst : Byte} {r d : Fin 16} {a : Nat}

/-- A `store` in range writes its register's word at the address its two bytes name (R121, N3). -/
theorem exec_store_setWord (s : State) (hr : src.toNat = r.val) (ha : 256 * hi.toNat + lo.toNat = a)
    (hle : a ≤ 8190) : exec (.store hi lo src) s = .next (s.setMem (s.mem.setWord a (s.reg r))) := by
  rw [← word16_toNat] at ha
  subst ha
  exact execStore_ok hr hle

/-- A `load` in range writes the word at the address its two bytes name (R120, N3). -/
theorem exec_load_word (s : State) (hd : dst.toNat = d.val) (ha : 256 * hi.toNat + lo.toNat = a)
    (hle : a ≤ 8190) : exec (.load dst hi lo) s = .next (s.setReg d (s.mem.word a)) := by
  rw [← word16_toNat] at ha
  subst ha
  exact execLoad_ok hd hle

end

/-- Settles O21, by `Memory.word_setWord_same`. -/
theorem storeThenLoadReturnsTheWord : Obligations.StoreThenLoadReturnsTheWord := by
  unfold Obligations.StoreThenLoadReturnsTheWord
  intro addrHi addrLo src dst r d q s hwf hr hd hle
  refine ⟨_, _, exec_store_setWord s hr rfl hle, exec_load_word _ hd rfl hle, ?_⟩
  rw [State.reg_setReg_same]
  exact Memory.word_setWord_same hwf hle (s.reg r)

/-- Settles O22: with the store above last, by `Memory.word_setWord_above`; with the store below last, by
`Memory.word_setWord_below`. -/
theorem overlappingStoresShareOneByte : Obligations.OverlappingStoresShareOneByte := by
  unfold Obligations.OverlappingStoresShareOneByte
  intro hi1 lo1 hi2 lo2 src1 src2 dst r1 r2 d p q s hwf h1 h2 hd hnext hle
  rw [hnext] at hle
  have hle1 : 256 * hi1.toNat + lo1.toNat ≤ 8190 := by omega
  constructor
  · refine ⟨_, _, _, exec_store_setWord s h1 rfl hle1, exec_store_setWord _ h2 hnext hle,
      exec_load_word _ hd rfl hle1, ?_⟩
    rw [State.reg_setReg_same]
    exact Memory.word_setWord_above hwf hle (s.reg r1) (s.reg r2)
  · refine ⟨_, _, _, exec_store_setWord s h2 hnext hle, exec_store_setWord _ h1 rfl hle1,
      exec_load_word _ hd hnext hle, ?_⟩
    rw [State.reg_setReg_same]
    exact Memory.word_setWord_below hwf hle (s.reg r1) (s.reg r2)

/-! ### The instruction stream is not the data memory -/

section
variable {s t u : State}

/-- Fetch reads the stream and the pc, and nothing else (R82). -/
theorem fetch_congr (hprog : u.prog = s.prog) (hpc : u.pc = s.pc) : fetch u = fetch s := by
  simp only [fetch, hprog, hpc]

/-- A `store` writes the memory or raises. -/
theorem exec_store_setMem_or_raise {hi lo src : Byte} (h : exec (.store hi lo src) s = .next t) :
    (∃ m, t = s.setMem m) ∨ ∃ f, t = s.raise f := by
  rw [exec_store] at h
  obtain ⟨_, -, -, e⟩ | ⟨_, -, -, e⟩ | ⟨-, e⟩ := execStore_cases hi lo src s
  · exact .inl ⟨_, Host.Outcome.next.inj (h.symm.trans e)⟩
  · exact .inr ⟨_, Host.Outcome.next.inj (h.symm.trans e)⟩
  · exact .inr ⟨_, Host.Outcome.next.inj (h.symm.trans e)⟩

/-- No instruction reads or writes the stream: run beside another one, its answer differs in the stream only (R52). -/
theorem SameEffect.eq_with_prog {i : Instr} {p : List Byte} (h : SameEffect i s { s with prog := p } t u) :
    u = { t with prog := p } := by
  cases h with
  | unchanged | register | memory | jump | failure => rfl

end

/-- Settles O32: fetch by `fetch_congr`; a `store` leaves the stream and the pc; a step keeps the parameters; an effect in
two states that differ in the stream; memory after reset. -/
theorem streamIsNeverWrittenOrReadAsData : Obligations.StreamIsNeverWrittenOrReadAsData := by
  unfold Obligations.StreamIsNeverWrittenOrReadAsData
  refine ⟨fun s u => fetch_congr, fun s m => fetch_congr rfl rfl, fun hi lo src s t h => ?_,
    fun s t h => ?_, fun i s t u p ht hu => ?_, State.construct_byte⟩
  · have hcases := exec_store_setMem_or_raise h
    refine ⟨?_, hcases⟩
    obtain ⟨m, rfl⟩ | ⟨f, rfl⟩ := hcases
    · exact fetch_congr rfl rfl
    · exact fetch_congr rfl rfl
  · obtain ⟨hprog, -⟩ := step_sameParams h
    exact hprog
  · exact (sameEffect_of_exec ht hu (fun _ _ _ _ => rfl) (.inr rfl) (.inr rfl)).eq_with_prog

end Sys2Proof.Machine

/-! ## The encoding of instructions (spec/30_encoding.md): decode and encode, one instruction and a whole program -/

namespace Sys2Proof

/-! ### The opcode map -/

theorem nodup_opcodeMap : opcodeMap.Nodup := by decide

theorem mem_opcodeMap (m : Mnemonic) : m ∈ opcodeMap := by cases m <;> decide

/-- An opcode byte selects the mnemonic at whose position in the map it stands, and no other byte does (R62, R64). -/
theorem opcodeMap_selects_iff {op : Byte} {m : Mnemonic} :
    opcodeMap[op.toNat]? = some m ↔ op = BitVec.ofNat 8 (opcodeMap.idxOf m) := by
  have hidx : opcodeMap.idxOf m < 23 := List.idxOf_lt_length_of_mem (mem_opcodeMap m)
  constructor
  · intro h
    obtain ⟨hlt, rfl⟩ := List.getElem?_eq_some_iff.mp h
    rw [nodup_opcodeMap.idxOf_getElem, BitVec.ofNat_toNat, BitVec.setWidth_eq]
  · rintro rfl
    rw [BitVec.toNat_ofNat, Nat.mod_eq_of_lt (by omega)]
    exact List.getElem?_idxOf (mem_opcodeMap m)

/-! ### One instruction -/

/-- An instruction is its mnemonic with the three operand bytes of its encoding (R63). -/
theorem Instr.exists_eq_build (i : Instr) : ∃ m a b c, i = Mnemonic.build m a b c :=
  ⟨i.mnemonic, (encode i).a, (encode i).b, (encode i).c, by cases i <;> rfl⟩

theorem encode_build (m : Mnemonic) (a b c : Byte) :
    encode (m.build a b c) = ⟨BitVec.ofNat 8 (opcodeMap.idxOf m), a, b, c⟩ := by
  cases m <;> rfl

theorem decode_ok_iff {w : InstrBytes} {i : Instr} :
    decode w = .ok i ↔ ∃ m, opcodeMap[w.op.toNat]? = some m ∧ i = m.build w.a w.b w.c := by
  unfold decode
  cases opcodeMap[w.op.toNat]? with
  | none => simp
  | some m => simp [eq_comm]

theorem decode_encode (i : Instr) : decode (encode i) = .ok i := by
  obtain ⟨m, a, b, c, rfl⟩ := i.exists_eq_build
  rw [encode_build]
  exact decode_of_opcode (opcodeMap_selects_iff.mpr rfl)

theorem encode_of_decode {w : InstrBytes} {i : Instr} (h : decode w = .ok i) : encode i = w := by
  obtain ⟨m, hm, rfl⟩ := decode_ok_iff.mp h
  rw [encode_build, ← opcodeMap_selects_iff.mp hm]

/-! ### A whole program -/

/-- One instruction read at the head of a byte sequence, before the ones that follow it. -/
theorem decodeProgram_toList_append {w : InstrBytes} {rest : List Byte} {i : Instr} {is : List Instr}
    (hd : decode w = .ok i) (hr : decodeProgram rest = .ok is) :
    decodeProgram (w.toList ++ rest) = .ok (i :: is) := by
  simp [InstrBytes.toList, decodeProgram, hd, hr]

/-- Instruction `k` of a program stands at offset `4 * k` of its bytes (R60). -/
theorem drop_encodeProgram (is : List Instr) (k : Nat) :
    (encodeProgram is).drop (4 * k) = encodeProgram (is.drop k) := by
  induction k generalizing is with
  | zero => rfl
  | succ k ih =>
    cases is with
    | nil => simp [encodeProgram]
    | cons i is =>
      rw [encodeProgram_cons, List.drop_succ_cons, ← ih, Nat.mul_succ, Nat.add_comm, ← List.drop_drop,
        List.drop_left' (encode i).length_toList]

end Sys2Proof

namespace Sys2Proof.Machine

section
variable {s : State} {w : InstrBytes}

/-- The bytes at the head of the stream from the pc on are those fetched (R82). -/
theorem fetch_of_drop_pc {rest : List Byte} (h : s.prog.drop s.pc.toNat = w.toList ++ rest) : fetch s = .ok w := by
  have hlen : s.prog.length - s.pc.toNat = 4 + rest.length := by
    rw [← List.length_drop, h, List.length_append, w.length_toList]
  have byte (j : Nat) : s.prog[s.pc.toNat + j]? = (w.toList ++ rest)[j]? := by
    rw [← h, List.getElem?_drop]
  exact fetch_ok_iff.mpr ⟨by omega, byte 0, byte 1, byte 2, byte 3⟩

/-- With a program's bytes as stream, the fetch at offset `4 * k` answers the encoding of its instruction `k`. -/
theorem fetch_of_encodeProgram {is : List Instr} {k : Nat} {i : Instr} (hprog : s.prog = encodeProgram is)
    (hk : is[k]? = some i) (hpc : s.pc.toNat = 4 * k) : fetch s = .ok (encode i) := by
  obtain ⟨hlt, rfl⟩ := List.getElem?_eq_some_iff.mp hk
  apply fetch_of_drop_pc (rest := encodeProgram (is.drop (k + 1)))
  rw [hprog, hpc, drop_encodeProgram, List.drop_eq_getElem_cons hlt, encodeProgram_cons]

/-- The step where nothing can be fetched raises what the fetch answers, with the pc as it is (R81, R161). -/
theorem step_of_fetch_error {f : Failure} (hs : s.status = .running) (hl : s.prog.length ≤ 65536)
    (hf : fetch s = .error f) : step s = .next (s.raise f) := by
  rw [step_of_running hs hl]
  simp [tick, hf]

end

/-- Settles O38, by induction on the program: its first instruction is read from its first four bytes. -/
theorem programsReadBackFromTheirBytes : Obligations.ProgramsReadBackFromTheirBytes := by
  unfold Obligations.ProgramsReadBackFromTheirBytes
  intro is
  induction is with
  | nil => rfl
  | cons i is ih =>
    rw [encodeProgram_cons]
    exact decodeProgram_toList_append (decode_encode i) ih

/-- Settles O39: the fetch at `4 * k` answers the encoding of instruction `k`; at the end of the stream it fails. -/
theorem stepRunsTheProgramsInstruction : Obligations.StepRunsTheProgramsInstruction := by
  unfold Obligations.StepRunsTheProgramsInstruction
  intro is s hs hprog hfits
  have hlen : s.prog.length = 4 * is.length := by rw [hprog, length_encodeProgram]
  have hl : s.prog.length ≤ 65536 := by omega
  refine ⟨fun k i hk hpc => ?_, fun hpc => ?_⟩
  · exact step_of_decoded hs hl (fetch_of_encodeProgram hprog hk hpc) (decode_encode i)
  · exact step_of_fetch_error hs hl (fetch_error_iff.mpr ⟨rfl, by omega⟩)

/-- Settles O34, by `encode_of_decode`: no two positions of the opcode map hold the same mnemonic. -/
theorem encodeOfDecodeIsTheBytes : Obligations.EncodeOfDecodeIsTheBytes := by
  unfold Obligations.EncodeOfDecodeIsTheBytes
  exact fun _ _ => encode_of_decode

/-- Settles O27: six instructions have an ignored place, and their handlers do not use its byte; each other instruction is
its own canonical spelling. -/
theorem ignoredOperandsChangeNothing : Obligations.IgnoredOperandsChangeNothing := by
  unfold Obligations.IgnoredOperandsChangeNothing
  intro i s
  cases i with
  | nop | copy | jmp | jr | jrIfZero | not => rfl
  | add | mul | sub | div | loadimm | load | store | eq | neq | lt | lte | gt | gte | jmpIfZero | and | or | xor => rfl

/-- Settles O33, by `decode_encode`: every mnemonic has a place in the opcode map. -/
theorem decodeOfEncodeIsTheInstruction : Obligations.DecodeOfEncodeIsTheInstruction := by
  unfold Obligations.DecodeOfEncodeIsTheInstruction
  exact decode_encode

/-- Settles O35: the map has 23 places, and the mnemonic is the one at the opcode's. -/
theorem decodeRejectsExactlyOpcodesFrom23 : Obligations.DecodeRejectsExactlyOpcodesFrom23 := by
  unfold Obligations.DecodeRejectsExactlyOpcodesFrom23
  refine ⟨fun w h => decode_error_iff.mpr ⟨rfl, h⟩, fun op h => ?_⟩
  have hlt : op.toNat < opcodeMap.length := h
  exact ⟨opcodeMap[op.toNat], fun a b c => decode_of_opcode (List.getElem?_eq_getElem hlt)⟩

/-- Settles O36: the instructions listed are those the opcode map builds, in its order, so `encode_build` gives each its
position. -/
theorem opcodeNumbersFollowTheTable : Obligations.OpcodeNumbersFollowTheTable := by
  unfold Obligations.OpcodeNumbersFollowTheTable
  intro a b c
  calc (opcodeMap.map fun m => m.build a b c).map encode
    _ = opcodeMap.map fun m => ⟨BitVec.ofNat 8 (opcodeMap.idxOf m), a, b, c⟩ := by
      simp only [List.map_map, Function.comp_def, encode_build]
    _ = _ := rfl

/-- Settles O37: each opcode byte's place in the map, by `decode_of_opcode`. -/
theorem wordsOfTheSpecDecode : Obligations.WordsOfTheSpecDecode := by
  unfold Obligations.WordsOfTheSpecDecode
  exact ⟨decode_of_opcode (m := .nop) rfl, decode_of_opcode (m := .add) rfl, decode_of_opcode (m := .loadimm) rfl,
    decode_of_opcode (m := .store) rfl, decode_of_opcode (m := .gt) rfl, decode_of_opcode (m := .jmpIfZero) rfl,
    decode_of_opcode (m := .xor) rfl⟩

end Sys2Proof.Machine

/-! ## The step and `nop` (spec/40_step_and_nop.md): what a running unit's step does, when a handler succeeds, and the run
loop -/

namespace Sys2Proof.Machine

/-! ### The step of a running unit -/

section
variable {s : State} {w : InstrBytes}

/-- Where four bytes stand at the pc, they are fetched (R81, R82). -/
theorem exists_fetch_ok (h : s.pc.toNat + 4 ≤ s.prog.length) : ∃ w, fetch s = .ok w := by
  cases hf : fetch s with
  | ok w => exact ⟨w, rfl⟩
  | error f =>
    obtain ⟨-, hlt⟩ := fetch_error_iff.mp hf
    omega

/-- The step of a fetched opcode byte that has no place in the map raises in the advanced state (R69, R162). -/
theorem step_of_invalidOpcode (hs : s.status = .running) (hl : s.prog.length ≤ 65536) (hf : fetch s = .ok w)
    (hop : 23 ≤ w.op.toNat) : step s = .next ((advance s).raise (.invalidOpcode w.op)) := by
  rw [step_of_running hs hl]
  simp [tick, hf, dispatchFetched, decodeFetched_error_iff.mpr ⟨rfl, hop⟩]

/-- A fetch that fails, an opcode that is invalid, and a handler all answer a next state. -/
theorem exists_step_of_running (hs : s.status = .running) (hl : s.prog.length ≤ 65536) : ∃ t, step s = .next t := by
  cases hf : fetch s with
  | error f => exact ⟨_, step_of_fetch_error hs hl hf⟩
  | ok w =>
    cases hd : decode w with
    | error e =>
      obtain ⟨-, hop⟩ := decode_error_iff.mp hd
      exact ⟨_, step_of_invalidOpcode hs hl hf hop⟩
    | ok i =>
      obtain ⟨t, ht, -⟩ := exec_cases i (advance s)
      exact ⟨t, (step_of_decoded hs hl hf hd).trans ht⟩

end

/-- Settles O46: this is `exists_step_of_running`. -/
theorem runningUnitAlwaysHasAStep : Obligations.RunningUnitAlwaysHasAStep := by
  unfold Obligations.RunningUnitAlwaysHasAStep
  exact fun _ => exists_step_of_running

/-- Settles O41: the four bytes are what the fetch answers. -/
theorem stepRunsTheDecodedInstruction : Obligations.StepRunsTheDecodedInstruction := by
  unfold Obligations.StepRunsTheDecodedInstruction
  intro s w i hs hl hle hop ha hb hc hd
  exact step_of_decoded hs hl (fetch_ok_iff.mpr ⟨hle, hop, ha, hb, hc⟩) hd

/-- Settles O42: the fetch fails with `EndOfProgram`, and the step raises it. -/
theorem stepPastTheStreamEndsTheRun : Obligations.StepPastTheStreamEndsTheRun := by
  unfold Obligations.StepPastTheStreamEndsTheRun
  intro s hs hl hlt
  exact step_of_fetch_error hs hl (fetch_error_iff.mpr ⟨rfl, hlt⟩)

/-- Settles O44: this is `step_of_halted`. -/
theorem haltedUnitTakesNoStep : Obligations.HaltedUnitTakesNoStep := by
  unfold Obligations.HaltedUnitTakesNoStep
  exact fun _ _ => step_of_halted

/-- Settles O1: the handler answers its own state; a byte 00 at the pc is fetched as the opcode of `nop`, whatever the
three bytes after it, so the step is the advance alone. -/
theorem nopChangesNothing : Obligations.NopChangesNothing := by
  unfold Obligations.NopChangesNothing
  refine ⟨fun a b c s => rfl, encode_build .nop, fun s hs hl hle hbyte => ?_⟩
  obtain ⟨w, hf⟩ := exists_fetch_ok hle
  obtain ⟨-, hop, -⟩ := fetch_ok_iff.mp hf
  have hzero : w.op = 0x00 := Option.some.inj (hop.symm.trans hbyte)
  have hd : decode w = .ok (.nop w.a w.b w.c) := decode_of_opcode (m := .nop) (by rw [hzero]; rfl)
  exact step_of_decoded hs hl hf hd

/-! ### The run loop -/

section
variable {s t : State}

/-- A halted unit's run takes no step (R89). -/
theorem runLoop_of_halted {f : Failure} (h : s.status = .halted f) (n : Nat) : runLoop n s = .next s := by
  cases n with
  | zero => rfl
  | succ n => simp [runLoop, h]

/-- A running unit's run begins with its step (R87). -/
theorem runLoop_succ_of_step (hs : s.status = .running) (ht : step s = .next t) (n : Nat) :
    runLoop (n + 1) s = runLoop n t := by
  simp [runLoop, hs, ht]

theorem runLoop_one (hs : s.status = .running) : runLoop 1 s = step s := by
  simp only [runLoop, hs]
  cases step s with
  | next | fault | refused => rfl

/-- A run with more fuel goes on from where the fuel first ended (R88, U16). -/
theorem runLoop_add {n : Nat} (h : runLoop n s = .next t) (k : Nat) : runLoop (n + k) s = runLoop k t := by
  induction n generalizing s with
  | zero =>
    obtain rfl : s = t := Host.Outcome.next.inj h
    rw [Nat.zero_add]
  | succ n ih =>
    cases hs : s.status with
    | halted f =>
      obtain rfl : s = t := Host.Outcome.next.inj ((runLoop_of_halted hs (n + 1)).symm.trans h)
      rw [runLoop_of_halted hs, runLoop_of_halted hs]
    | running =>
      cases hu : step s with
      | next u =>
        rw [runLoop_succ_of_step hs hu] at h
        rw [Nat.add_right_comm, runLoop_succ_of_step hs hu, ih h]
      | fault | refused => simp [runLoop, hs, hu] at h

end

/-- Settles O50, by induction on the fuel: a unit that meets the invariant has halted or has a step, and the step keeps the
invariant and the parameters. -/
theorem runLoopIsNeverStuck : Obligations.RunLoopIsNeverStuck := by
  unfold Obligations.RunLoopIsNeverStuck
  intro n
  induction n with
  | zero => exact fun s hinv => ⟨s, rfl, hinv, rfl, rfl⟩
  | succ n ih =>
    intro s hinv
    cases hs : s.status with
    | halted f => exact ⟨s, runLoop_of_halted hs _, hinv, rfl, rfl⟩
    | running =>
      obtain ⟨u, hu⟩ := exists_step_of_running hs hinv.2
      obtain ⟨hprog, hgte⟩ := step_sameParams hu
      obtain ⟨t, ht, htinv, htprog, htgte⟩ := ih u (stepKeepsTheInvariant s u hinv hu)
      exact ⟨t, (runLoop_succ_of_step hs hu n).trans ht, htinv, htprog.trans hprog, htgte.trans hgte⟩

/-- Settles O51: the run goes on from `t` by `runLoop_add`, with no step if `t` is halted and with its step if not. -/
theorem runLoopHaltIsFinal : Obligations.RunLoopHaltIsFinal := by
  unfold Obligations.RunLoopHaltIsFinal
  intro n s t h
  exact ⟨fun f ht k => (runLoop_add h k).trans (runLoop_of_halted ht k),
    fun ht => (runLoop_add h 1).trans (runLoop_one ht)⟩

/-! ### When a handler succeeds -/

/-- The outcome is a next state, which is running exactly when `P` holds. -/
def RunningExactlyWhen (P : Prop) (o : Host.Outcome State Fault Refusal) : Prop :=
  ∃ t, o = .next t ∧ (t.status = .running ↔ P)

section
variable {P : Prop} {o : Host.Outcome State Fault Refusal} {s t : State}

theorem runningExactlyWhen_of_running (h : o = .next t) (ht : t.status = .running) (hP : P) :
    RunningExactlyWhen P o :=
  ⟨t, h, iff_of_true ht hP⟩

theorem runningExactlyWhen_of_raise {f : Failure} (h : o = .next (s.raise f)) (hP : ¬ P) : RunningExactlyWhen P o :=
  ⟨_, h, iff_of_false nofun hP⟩

end

/-! #### The two conditions of `Succeeds` -/

section
variable {i : Instr} {s : State}

/-- Well-formed means that every register operand selects a register (R67). -/
theorem instr_wf_iff : i.wf = true ↔ ∀ v ∈ i.regOperands, v.toNat < 16 := by
  simp [Instr.wf]

/-- An instruction with a register operand of 16 or above does not succeed (R164). -/
theorem not_succeeds_of_mem {v : Byte} (hv : v ∈ i.regOperands) (h16 : 16 ≤ v.toNat) : ¬ Succeeds i s := by
  rintro ⟨hwf, -⟩
  exact absurd (instr_wf_iff.mp hwf v hv) (Nat.not_lt.mpr h16)

theorem not_succeeds_of_not_allowed (h : ¬ OperandsAllow i s) : ¬ Succeeds i s := fun hsucc => h hsucc.2

/-- An instruction whose one register operand selects a register succeeds where its other conditions hold. -/
theorem succeeds_of_oneReg {v : Byte} {r : Fin 16} (hreg : i.regOperands = [v]) (hv : v.toNat = r.val)
    (ha : OperandsAllow i s) : Succeeds i s :=
  ⟨instr_wf_iff.mpr (by simp [hreg, hv]), ha⟩

end

/-! #### The handlers by shape -/

section
variable {i : Instr} {s : State}

/-- A three-register instruction succeeds exactly when its three operands select registers and its value is defined, which
`hf` says is its other condition. -/
theorem threeReg_runningExactlyWhen {dst src1 src2 : Byte} {f : Word → Word → Except Failure Word}
    (hs : s.status = .running) (hreg : i.regOperands = [dst, src1, src2])
    (hf : ∀ r1 r2 : Fin 16, src1.toNat = r1.val → src2.toNat = r2.val →
      (OperandsAllow i s ↔ ∃ v, f (s.reg r1) (s.reg r2) = .ok v)) :
    RunningExactlyWhen (Succeeds i s) (threeReg dst src1 src2 f s) := by
  obtain ⟨d, r1, r2, v, hd, h1, h2, hv, h⟩ | ⟨d, r1, r2, e, hd, h1, h2, he, h⟩ | ⟨v, hv, h⟩ :=
    threeReg_cases dst src1 src2 f s
  · have hwf : i.wf = true := instr_wf_iff.mpr (by simp [hreg, hd, h1, h2])
    exact runningExactlyWhen_of_running h hs ⟨hwf, (hf r1 r2 h1 h2).mpr ⟨v, hv⟩⟩
  · have hno : ¬ OperandsAllow i s := by simp [hf r1 r2 h1 h2, he]
    exact runningExactlyWhen_of_raise h (not_succeeds_of_not_allowed hno)
  · have h16 : 16 ≤ v.toNat := by simpa using List.find?_some hv
    exact runningExactlyWhen_of_raise h (not_succeeds_of_mem (hreg ▸ List.mem_of_find?_eq_some hv) h16)

/-- The same where the value is always defined and the instruction has no other condition. -/
theorem threeReg_ok_runningExactlyWhen {dst src1 src2 : Byte} (g : Word → Word → Word) (hs : s.status = .running)
    (hreg : i.regOperands = [dst, src1, src2]) (ha : OperandsAllow i s) :
    RunningExactlyWhen (Succeeds i s) (threeReg dst src1 src2 (fun v w => .ok (g v w)) s) :=
  threeReg_runningExactlyWhen hs hreg fun _ _ _ _ => iff_of_true ha ⟨_, rfl⟩

/-- A two-register instruction succeeds exactly when its two operands select registers. -/
theorem twoReg_runningExactlyWhen {dst src : Byte} (f : Word → Word) (hs : s.status = .running)
    (hreg : i.regOperands = [dst, src]) (ha : OperandsAllow i s) :
    RunningExactlyWhen (Succeeds i s) (twoReg dst src f s) := by
  obtain ⟨d, r, hd, hr, h⟩ | ⟨v, hv, h⟩ := twoReg_cases dst src f s
  · have hwf : i.wf = true := instr_wf_iff.mpr (by simp [hreg, hd, hr])
    exact runningExactlyWhen_of_running h hs ⟨hwf, ha⟩
  · have h16 : 16 ≤ v.toNat := by simpa using List.find?_some hv
    exact runningExactlyWhen_of_raise h (not_succeeds_of_mem (hreg ▸ List.mem_of_find?_eq_some hv) h16)

/-- The quotient is defined exactly when the divisor is not zero, whichever register `src2` selects (R103). -/
theorem div_operandsAllow_iff {dst src1 src2 : Byte} {r2 : Fin 16} (v : Word) (h2 : src2.toNat = r2.val) :
    OperandsAllow (.div dst src1 src2) s ↔ ∃ q, quotient v (s.reg r2) = .ok q := by
  constructor
  · intro h
    exact ⟨_, quotient_ok (h r2 h2)⟩
  · rintro ⟨q, hq⟩ r hr hzero
    obtain rfl : r = r2 := Fin.ext (hr.symm.trans h2)
    rw [hzero, quotient_error] at hq
    cases hq

/-- `loadimm` succeeds exactly when its destination selects a register. -/
theorem execLoadimm_runningExactlyWhen (dst hi lo : Byte) (hs : s.status = .running) :
    RunningExactlyWhen (Succeeds (.loadimm dst hi lo) s) (execLoadimm dst hi lo s) := by
  obtain ⟨d, hd, h⟩ | ⟨h16, h⟩ := execLoadimm_cases dst hi lo s
  · exact runningExactlyWhen_of_running h hs (succeeds_of_oneReg rfl hd trivial)
  · exact runningExactlyWhen_of_raise h (not_succeeds_of_mem (List.mem_singleton_self dst) h16)

/-- `jmpIfZero` succeeds exactly when its source selects a register, taken or not (R141). -/
theorem execJmpIfZero_runningExactlyWhen (hi lo src : Byte) (hs : s.status = .running) :
    RunningExactlyWhen (Succeeds (.jmpIfZero hi lo src) s) (execJmpIfZero hi lo src s) := by
  obtain ⟨r, hr, -, h⟩ | ⟨r, hr, -, h⟩ | ⟨h16, h⟩ := execJmpIfZero_cases hi lo src s
  · exact runningExactlyWhen_of_running h hs (succeeds_of_oneReg rfl hr trivial)
  · exact runningExactlyWhen_of_running h hs (succeeds_of_oneReg rfl hr trivial)
  · exact runningExactlyWhen_of_raise h (not_succeeds_of_mem (List.mem_singleton_self src) h16)

/-- The address condition of `load`, on the address the handler computes (R46, N3). -/
theorem load_operandsAllow_iff {dst hi lo : Byte} :
    OperandsAllow (.load dst hi lo) s ↔ (word16 hi lo).toNat ≤ 8190 := by
  rw [word16_toNat]; rfl

/-- The address condition of `store`, on the address the handler computes (R46, N3). -/
theorem store_operandsAllow_iff {hi lo src : Byte} :
    OperandsAllow (.store hi lo src) s ↔ (word16 hi lo).toNat ≤ 8190 := by
  rw [word16_toNat]; rfl

/-- `load` succeeds exactly when its destination selects a register and its address is at most 8190. -/
theorem execLoad_runningExactlyWhen (dst hi lo : Byte) (hs : s.status = .running) :
    RunningExactlyWhen (Succeeds (.load dst hi lo) s) (execLoad dst hi lo s) := by
  obtain ⟨d, hd, ha, h⟩ | ⟨d, hd, ha, h⟩ | ⟨h16, h⟩ := execLoad_cases dst hi lo s
  · exact runningExactlyWhen_of_running h hs (succeeds_of_oneReg rfl hd (load_operandsAllow_iff.mpr ha))
  · have hno : ¬ OperandsAllow (.load dst hi lo) s := by rw [load_operandsAllow_iff]; omega
    exact runningExactlyWhen_of_raise h (not_succeeds_of_not_allowed hno)
  · exact runningExactlyWhen_of_raise h (not_succeeds_of_mem (List.mem_singleton_self dst) h16)

/-- `store` succeeds exactly when its source selects a register and its address is at most 8190. -/
theorem execStore_runningExactlyWhen (hi lo src : Byte) (hs : s.status = .running) :
    RunningExactlyWhen (Succeeds (.store hi lo src) s) (execStore hi lo src s) := by
  obtain ⟨r, hr, ha, h⟩ | ⟨r, hr, ha, h⟩ | ⟨h16, h⟩ := execStore_cases hi lo src s
  · exact runningExactlyWhen_of_running h hs (succeeds_of_oneReg rfl hr (store_operandsAllow_iff.mpr ha))
  · have hno : ¬ OperandsAllow (.store hi lo src) s := by rw [store_operandsAllow_iff]; omega
    exact runningExactlyWhen_of_raise h (not_succeeds_of_not_allowed hno)
  · exact runningExactlyWhen_of_raise h (not_succeeds_of_mem (List.mem_singleton_self src) h16)

/-- Every handler of a running unit succeeds exactly when no failure condition of its instruction's rule holds. -/
theorem exec_runningExactlyWhen (i : Instr) (hs : s.status = .running) :
    RunningExactlyWhen (Succeeds i s) (exec i s) := by
  cases i with
  | nop | jmp => exact runningExactlyWhen_of_running rfl hs ⟨rfl, trivial⟩
  | jr | jrIfZero => exact runningExactlyWhen_of_raise rfl (not_succeeds_of_not_allowed id)
  | add d a b => exact threeReg_ok_runningExactlyWhen (fun v w => v + w) hs rfl trivial
  | mul d a b => exact threeReg_ok_runningExactlyWhen (fun v w => v * w) hs rfl trivial
  | sub d a b => exact threeReg_ok_runningExactlyWhen (fun v w => v - w) hs rfl trivial
  | div d a b => exact threeReg_runningExactlyWhen hs rfl fun r1 _ _ h2 => div_operandsAllow_iff (s.reg r1) h2
  | eq d a b => exact threeReg_ok_runningExactlyWhen (fun v w => b2w (relEq v w)) hs rfl trivial
  | neq d a b => exact threeReg_ok_runningExactlyWhen (fun v w => b2w (relNeq v w)) hs rfl trivial
  | lt d a b => exact threeReg_ok_runningExactlyWhen (fun v w => b2w (relLt v w)) hs rfl trivial
  | lte d a b => exact threeReg_ok_runningExactlyWhen (fun v w => b2w (relLte v w)) hs rfl trivial
  | gt d a b => exact threeReg_ok_runningExactlyWhen (fun v w => b2w (relGt v w)) hs rfl trivial
  | gte d a b => exact threeReg_ok_runningExactlyWhen (fun v w => b2w (relGte s.gteCorrected v w)) hs rfl trivial
  | and d a b => exact threeReg_ok_runningExactlyWhen (fun v w => v &&& w) hs rfl trivial
  | or d a b => exact threeReg_ok_runningExactlyWhen (fun v w => v ||| w) hs rfl trivial
  | xor d a b => exact threeReg_ok_runningExactlyWhen (fun v w => v ^^^ w) hs rfl trivial
  | copy d a => exact twoReg_runningExactlyWhen (fun v => v) hs rfl trivial
  | not d a => exact twoReg_runningExactlyWhen (fun v => ~~~v) hs rfl trivial
  | loadimm dst hi lo => exact execLoadimm_runningExactlyWhen dst hi lo hs
  | load dst hi lo => exact execLoad_runningExactlyWhen dst hi lo hs
  | store hi lo src => exact execStore_runningExactlyWhen hi lo src hs
  | jmpIfZero hi lo src => exact execJmpIfZero_runningExactlyWhen hi lo src hs

end

/-- Settles O25: this is `exec_runningExactlyWhen`, by the shape of each instruction's handler. -/
theorem handlerSucceedsExactlyWhenAllowed : Obligations.HandlerSucceedsExactlyWhenAllowed := by
  unfold Obligations.HandlerSucceedsExactlyWhenAllowed
  exact fun i _ => exec_runningExactlyWhen i

end Sys2Proof.Machine

/-! ## Arithmetic (spec/41_arithmetic.md): `add`, `mul`, `sub`, `div` -/

namespace Sys2Proof.Machine

/-! ### What a register write and a raise leave unchanged -/

theorem onlyRegisterWritten_setReg (s : State) (d : Fin 16) (v : Word) : OnlyRegisterWritten s (s.setReg d v) d v :=
  ⟨s.reg_setReg_same d v, fun _ hr => s.reg_setReg_other hr v, rfl, fun _ => rfl, rfl, rfl, rfl⟩

theorem onlyFailureRaised_raise (s : State) (f : Failure) : OnlyFailureRaised s (s.raise f) f :=
  ⟨rfl, fun _ => rfl, rfl, fun _ => rfl, rfl, rfl⟩

/-! ### The three-register shape (R105) -/

section
variable {mk : Byte → Byte → Byte → Instr}

/-- Instructions of the three-register shape whose value is always defined write that value. -/
theorem writesFromTwo_of_threeReg {g : Word → Word → Word} {value : Nat → Nat → Nat}
    (hexec : ∀ a b c s, exec (mk a b c) s = threeReg a b c (fun v w => .ok (g v w)) s)
    (hvalue : ∀ v w : Word, (g v w).toNat = value v.toNat w.toNat) : WritesFromTwo mk value := by
  intro dst src1 src2 d r1 r2 s hd h1 h2
  have hnext : exec (mk dst src1 src2) s = .next (s.setReg d (g (s.reg r1) (s.reg r2))) :=
    (hexec ..).trans (threeReg_ok hd h1 h2 rfl)
  exact ⟨_, _, hnext, onlyRegisterWritten_setReg .., hvalue ..⟩

/-- Instructions of the three-register shape raise for a bad operand, whatever their value: the operands are checked
before the sources are read (R84, D7). -/
theorem badRegisterRaises_of_threeReg {f : State → Word → Word → Except Failure Word}
    (hexec : ∀ a b c s, exec (mk a b c) s = threeReg a b c (f s) s) : BadRegisterRaises mk := by
  intro dst src1 src2 s hbad
  have hsome : ([dst, src1, src2].find? fun v => decide (16 ≤ v.toNat)).isSome := by simpa using hbad
  obtain ⟨v, hv⟩ := Option.isSome_iff_exists.mp hsome
  have h16 : 16 ≤ v.toNat := by simpa using List.find?_some hv
  exact ⟨_, v, (hexec ..).trans (threeReg_bad hv), List.mem_of_find?_eq_some hv, h16, onlyFailureRaised_raise ..⟩

end

/-! ### The four instructions -/

/-- The difference of two words, a negative one plus 65536 (R102, R104). -/
theorem sub_toNat (v w : Word) :
    (v - w).toNat = if w.toNat ≤ v.toNat then v.toNat - w.toNat else v.toNat + 65536 - w.toNat := by
  split
  next hle => exact BitVec.toNat_sub_of_le hle
  next hlt => rw [BitVec.toNat_sub_of_lt (Nat.not_le.mp hlt)]; omega

section
variable {dst src1 src2 : Byte} {d r1 r2 : Fin 16} {s : State}

theorem execDiv_ok (hd : dst.toNat = d.val) (h1 : src1.toNat = r1.val) (h2 : src2.toNat = r2.val)
    (hne : s.reg r2 ≠ 0#16) : execDiv dst src1 src2 s = .next (s.setReg d (s.reg r1 / s.reg r2)) :=
  threeReg_ok hd h1 h2 (quotient_ok hne)

theorem execDiv_zero (hd : dst.toNat = d.val) (h1 : src1.toNat = r1.val) (h2 : src2.toNat = r2.val)
    (hzero : s.reg r2 = 0#16) : execDiv dst src1 src2 s = .next (s.raise .divisionByZero) := by
  have hq : quotient (s.reg r1) (s.reg r2) = .error .divisionByZero := hzero ▸ quotient_error _
  exact threeReg_error hd h1 h2 hq

end

/-- Settles O2: `add` has the three-register shape, and a sum of words is the sum modulo 65536. -/
theorem addWritesSumModulo65536 : Obligations.AddWritesSumModulo65536 := by
  unfold Obligations.AddWritesSumModulo65536
  exact ⟨writesFromTwo_of_threeReg exec_add BitVec.toNat_add, badRegisterRaises_of_threeReg exec_add, encode_build .add⟩

/-- Settles O3: `mul` has the three-register shape, and a product of words is the product modulo 65536. -/
theorem mulWritesLow16BitsOfProduct : Obligations.MulWritesLow16BitsOfProduct := by
  unfold Obligations.MulWritesLow16BitsOfProduct
  exact ⟨writesFromTwo_of_threeReg exec_mul BitVec.toNat_mul, badRegisterRaises_of_threeReg exec_mul, encode_build .mul⟩

/-- Settles O4: `sub` has the three-register shape, and `sub_toNat` gives its value. -/
theorem subWritesDifferenceModulo65536 : Obligations.SubWritesDifferenceModulo65536 := by
  unfold Obligations.SubWritesDifferenceModulo65536
  exact ⟨writesFromTwo_of_threeReg exec_sub sub_toNat, badRegisterRaises_of_threeReg exec_sub, encode_build .sub⟩

/-- Settles O5: once the three operands select registers, the divisor alone decides between quotient and failure. -/
theorem divWritesFloorQuotientOrRaises : Obligations.DivWritesFloorQuotientOrRaises := by
  unfold Obligations.DivWritesFloorQuotientOrRaises
  refine ⟨?_, ?_, badRegisterRaises_of_threeReg exec_div, encode_build .div⟩
  · intro dst src1 src2 d r1 r2 s hd h1 h2 hne
    exact ⟨_, _, execDiv_ok hd h1 h2 hne, onlyRegisterWritten_setReg .., BitVec.toNat_udiv⟩
  · intro dst src1 src2 d r1 r2 s hd h1 h2 hzero
    exact ⟨_, execDiv_zero hd h1 h2 hzero, onlyFailureRaised_raise ..⟩

end Sys2Proof.Machine

/-! ## Moves (spec/42_move.md): `copy`, `loadimm` -/

namespace Sys2Proof.Machine

/-! ### The result of `copy`, by case -/

section
variable {dst src : Byte} {d r : Fin 16} {s : State} (c : Byte)

theorem execCopy_ok (hd : dst.toNat = d.val) (hr : src.toNat = r.val) :
    execCopy dst src c s = .next (s.setReg d (s.reg r)) :=
  twoReg_ok (f := fun v => v) hd hr

/-- A bad destination is the first bad operand, whatever the source is (D7). -/
theorem execCopy_bad_dst (hd : 16 ≤ dst.toNat) :
    execCopy dst src c s = .next (s.raise (.outOfRangeAccess (.reg dst))) :=
  twoReg_bad (List.find?_cons_of_pos (decide_eq_true hd))

/-- A bad source is the first bad operand after a good destination (D7). -/
theorem execCopy_bad_src (hd : dst.toNat < 16) (hr : 16 ≤ src.toNat) :
    execCopy dst src c s = .next (s.raise (.outOfRangeAccess (.reg src))) :=
  twoReg_bad (by simp [hd, hr])

end

/-! ### The two instructions -/

/-- Settles O6: the destination is checked before the source, and each outcome is one register write or one raise. -/
theorem copyWritesTheSourceWord : Obligations.CopyWritesTheSourceWord := by
  unfold Obligations.CopyWritesTheSourceWord
  refine ⟨?_, ?_, ?_, encode_build .copy⟩
  · intro dst src c d r s hd hr
    exact ⟨_, execCopy_ok c hd hr, onlyRegisterWritten_setReg ..⟩
  · intro dst src c s hd
    exact ⟨_, execCopy_bad_dst c hd, onlyFailureRaised_raise ..⟩
  · intro dst src c s hd hr
    exact ⟨_, execCopy_bad_src c hd hr, onlyFailureRaised_raise ..⟩

/-- Settles O7: the word written is `word16 hi lo`, whose value is `256 * hi + lo`. -/
theorem loadimmWritesTheImmediate : Obligations.LoadimmWritesTheImmediate := by
  unfold Obligations.LoadimmWritesTheImmediate
  refine ⟨?_, ?_, encode_build .loadimm⟩
  · intro dst hi lo d s hd
    exact ⟨_, _, execLoadimm_ok hd, onlyRegisterWritten_setReg .., word16_toNat hi lo⟩
  · intro dst hi lo s hd
    exact ⟨_, execLoadimm_bad hd, onlyFailureRaised_raise ..⟩

end Sys2Proof.Machine

/-! ## Load and store (spec/43_load_store.md): `load`, `store` -/

namespace Sys2Proof.Machine

/-! ### A byte read after a word is written (R40) -/

section
variable {m : Memory} {a b : Nat}

theorem Memory.byte_setWord_high (h : m.wf) (ha : a ≤ 8190) (v : Word) :
    ((m.setWord a v).byte a).toNat = v.toNat / 256 := by
  rw [Memory.byte_setWord h ha, if_pos rfl, hiByte_toNat]

theorem Memory.byte_setWord_low (h : m.wf) (ha : a ≤ 8190) (v : Word) :
    ((m.setWord a v).byte (a + 1)).toNat = v.toNat % 256 := by
  rw [Memory.byte_setWord h ha, if_neg (Nat.succ_ne_self a), if_pos rfl, loByte_toNat]

theorem Memory.byte_setWord_other (h : m.wf) (ha : a ≤ 8190) (v : Word) (hhigh : b ≠ a) (hlow : b ≠ a + 1) :
    (m.setWord a v).byte b = m.byte b := by
  rw [Memory.byte_setWord h ha, if_neg hhigh, if_neg hlow]

end

/-! ### The two instructions -/

/-- Settles O8: the destination is checked before the address, and each outcome is one register write or one raise. -/
theorem loadReadsTheBigEndianWord : Obligations.LoadReadsTheBigEndianWord := by
  unfold Obligations.LoadReadsTheBigEndianWord
  refine ⟨?_, ?_, ?_, encode_build .load⟩
  · intro dst hi lo d s hd ha
    exact ⟨_, _, exec_load_word s hd rfl ha, onlyRegisterWritten_setReg .., word16_toNat ..⟩
  · intro dst hi lo s hd ha
    rw [← word16_toNat] at ha
    exact ⟨_, execLoad_range (d := ⟨dst.toNat, hd⟩) rfl ha, onlyFailureRaised_raise ..⟩
  · intro dst hi lo s hd
    exact ⟨_, execLoad_bad hd, onlyFailureRaised_raise ..⟩

/-- Settles O9: the source is checked before the address, and each outcome is one word written to memory or one raise. -/
theorem storeWritesTheBigEndianWord : Obligations.StoreWritesTheBigEndianWord := by
  unfold Obligations.StoreWritesTheBigEndianWord
  refine ⟨word16_toNat, ?_, ?_, ?_, encode_build .store⟩
  · intro hi lo src r s hwf hr ha
    exact ⟨_, execStore_ok hr ha, Memory.byte_setWord_high hwf ha _, Memory.byte_setWord_low hwf ha _,
      fun b hhigh hlow => Memory.byte_setWord_other hwf ha _ hhigh hlow, fun _ => rfl, rfl, rfl, rfl, rfl⟩
  · intro hi lo src s hr ha
    exact ⟨_, execStore_range (r := ⟨src.toNat, hr⟩) rfl ha, onlyFailureRaised_raise ..⟩
  · intro hi lo src s hr
    exact ⟨_, execStore_bad hr, onlyFailureRaised_raise ..⟩

end Sys2Proof.Machine

/-! ## Comparisons (spec/44_compare.md): `eq`, `neq`, `lt`, `lte`, `gt`, `gte` -/

namespace Sys2Proof.Machine

/-! ### The word of each relation, by the unsigned values (R136, D15) -/

theorem b2w_decide_toNat (p : Prop) [Decidable p] : (b2w (decide p)).toNat = if p then 1 else 0 := by
  by_cases h : p
  · rw [decide_eq_true h, if_pos h]; rfl
  · rw [decide_eq_false h, if_neg h]; rfl

section
variable (v w : Word)

/-- Words are equal exactly when their unsigned values are. -/
theorem relEq_eq_decide_toNat : relEq v w = decide (v.toNat = w.toNat) :=
  decide_eq_decide.mpr BitVec.toNat_inj.symm

theorem relNeq_eq_decide_toNat : relNeq v w = decide (v.toNat ≠ w.toNat) :=
  decide_eq_decide.mpr BitVec.toNat_inj.symm.not

theorem b2w_relEq_toNat : (b2w (relEq v w)).toNat = if v.toNat = w.toNat then 1 else 0 := by
  rw [relEq_eq_decide_toNat, b2w_decide_toNat]

theorem b2w_relNeq_toNat : (b2w (relNeq v w)).toNat = if v.toNat ≠ w.toNat then 1 else 0 := by
  rw [relNeq_eq_decide_toNat, b2w_decide_toNat]

theorem b2w_relLt_toNat : (b2w (relLt v w)).toNat = if v.toNat < w.toNat then 1 else 0 :=
  b2w_decide_toNat _

theorem b2w_relLte_toNat : (b2w (relLte v w)).toNat = if v.toNat ≤ w.toNat then 1 else 0 :=
  b2w_decide_toNat _

theorem b2w_relGt_toNat : (b2w (relGt v w)).toNat = if w.toNat < v.toNat then 1 else 0 :=
  b2w_decide_toNat _

/-- With `GTE_CORRECTED = false`, `gte` computes what `lt` does (R135, D2). -/
@[simp] theorem relGte_false : relGte false v w = relLt v w := rfl

theorem b2w_relGte_true_toNat : (b2w (relGte true v w)).toNat = if w.toNat ≤ v.toNat then 1 else 0 :=
  b2w_decide_toNat _

end

/-! ### `gte` and its parameter -/

section
variable {dst src1 src2 : Byte} {s : State}

theorem execGte_eq_execLt (h : s.gteCorrected = false) : execGte dst src1 src2 s = execLt dst src1 src2 s := by
  simp only [execGte, execLt, h, relGte_false]

theorem execGte_ok {d r1 r2 : Fin 16} (hd : dst.toNat = d.val) (h1 : src1.toNat = r1.val) (h2 : src2.toNat = r2.val) :
    execGte dst src1 src2 s = .next (s.setReg d (b2w (relGte s.gteCorrected (s.reg r1) (s.reg r2)))) :=
  threeReg_ok hd h1 h2 rfl

end

/-! ### The six instructions -/

/-- Settles O10: each of the five has the three-register shape, and its value is the word of its relation. -/
theorem comparisonsWriteOneOrZero : Obligations.ComparisonsWriteOneOrZero := by
  unfold Obligations.ComparisonsWriteOneOrZero
  refine ⟨writesFromTwo_of_threeReg exec_eq b2w_relEq_toNat, writesFromTwo_of_threeReg exec_neq b2w_relNeq_toNat,
    writesFromTwo_of_threeReg exec_lt b2w_relLt_toNat, writesFromTwo_of_threeReg exec_lte b2w_relLte_toNat,
    writesFromTwo_of_threeReg exec_gt b2w_relGt_toNat,
    badRegisterRaises_of_threeReg exec_eq, badRegisterRaises_of_threeReg exec_neq,
    badRegisterRaises_of_threeReg exec_lt, badRegisterRaises_of_threeReg exec_lte,
    badRegisterRaises_of_threeReg exec_gt, ?_⟩
  intro dst src1 src2
  exact ⟨encode_build .eq .., encode_build .neq .., encode_build .lt .., encode_build .lte .., encode_build .gt ..⟩

/-- Settles O11: the parameter alone selects the relation whose word `gte` writes. -/
theorem gteIsLtUnlessCorrected : Obligations.GteIsLtUnlessCorrected := by
  unfold Obligations.GteIsLtUnlessCorrected
  refine ⟨fun _ _ _ _ => execGte_eq_execLt, ?_, badRegisterRaises_of_threeReg exec_gte, encode_build .gte⟩
  intro dst src1 src2 d r1 r2 s hd h1 h2
  refine ⟨_, _, execGte_ok hd h1 h2, onlyRegisterWritten_setReg .., ?_, ?_⟩
  · intro hfalse
    rw [hfalse, relGte_false, b2w_relLt_toNat]
  · intro htrue
    rw [htrue, b2w_relGte_true_toNat]

end Sys2Proof.Machine

/-! ## Jumps (spec/45_jump.md): `jmp`, `jmpIfZero`, `jr`, `jrIfZero` -/

namespace Sys2Proof.Machine

/-! ### What a write of the pc leaves unchanged -/

theorem onlyPcWritten_setPc (s : State) (v : Word) : OnlyPcWritten s (s.setPc v) v :=
  ⟨s.setPc_pc v, s.setPc_reg v, fun _ => rfl, rfl, rfl, rfl⟩

/-! ### The handlers with a single outcome -/

section
variable (a b c : Byte) (s : State)

theorem execJmp_eq_setPc : execJmp a b c s = .next (s.setPc (word16 a b)) :=
  conclude_ok s _

/-- `jr` is rejected whatever its operands (R142, D3). -/
theorem execJr_eq_raise : execJr a b c s = .next (s.raise (.notImplemented 17)) :=
  conclude_error s _

/-- `jrIfZero` is rejected before any condition is looked at (R143, D3). -/
theorem execJrIfZero_eq_raise : execJrIfZero a b c s = .next (s.raise (.notImplemented 18)) :=
  conclude_error s _

end

/-! ### The four instructions -/

/-- Settles O12: the only outcome is the write of `word16 hi lo` to the pc, whose value is `256 * hi + lo`. -/
theorem jmpWritesTheAbsoluteTarget : Obligations.JmpWritesTheAbsoluteTarget := by
  unfold Obligations.JmpWritesTheAbsoluteTarget
  refine ⟨?_, encode_build .jmp⟩
  intro hi lo c s
  exact ⟨_, _, execJmp_eq_setPc hi lo c s, onlyPcWritten_setPc .., word16_toNat hi lo⟩

/-- Settles O13: the operand is checked before the word is tested, and each outcome is one pc write, the state itself or
one raise. -/
theorem jmpIfZeroTestsTheWholeWord : Obligations.JmpIfZeroTestsTheWholeWord := by
  unfold Obligations.JmpIfZeroTestsTheWholeWord
  refine ⟨?_, ?_, ?_, encode_build .jmpIfZero⟩
  · intro hi lo src r s hr hzero
    exact ⟨_, _, execJmpIfZero_taken hr hzero, onlyPcWritten_setPc .., word16_toNat hi lo⟩
  · intro hi lo src r s hr hne
    exact execJmpIfZero_not_taken hr hne
  · intro hi lo src s hr
    exact ⟨_, execJmpIfZero_bad hr, onlyFailureRaised_raise ..⟩

/-- Settles O14: the only outcome of either is one raise, of `NotImplemented` with its own opcode. -/
theorem jrAndJrIfZeroRaiseNotImplemented : Obligations.JrAndJrIfZeroRaiseNotImplemented := by
  unfold Obligations.JrAndJrIfZeroRaiseNotImplemented
  refine ⟨fun a b c s => ⟨?_, ?_⟩, fun a b c => ⟨encode_build .jr a b c, encode_build .jrIfZero a b c⟩⟩
  · exact ⟨_, execJr_eq_raise a b c s, onlyFailureRaised_raise ..⟩
  · exact ⟨_, execJrIfZero_eq_raise a b c s, onlyFailureRaised_raise ..⟩

end Sys2Proof.Machine

/-! ## Bitwise (spec/46_bitwise.md): `and`, `or`, `xor`, `not` -/

namespace Sys2Proof.Machine

section
variable {dst src1 src2 src : Byte} {d r1 r2 r : Fin 16} {s : State}

/-- A three-register instruction whose value is computed bit by bit writes a word of which each bit depends on the source
bits at its position only (R154). -/
theorem bitsWritten_of_threeReg {i : Instr} {g : Word → Word → Word} {bit : Bool → Bool → Bool}
    (hexec : exec i s = threeReg dst src1 src2 (fun v w => .ok (g v w)) s)
    (hbit : ∀ {k v w}, (g v w).getLsbD k = bit (v.getLsbD k) (w.getLsbD k))
    (hd : dst.toNat = d.val) (h1 : src1.toNat = r1.val) (h2 : src2.toNat = r2.val) :
    ∃ t v, exec i s = .next t ∧ OnlyRegisterWritten s t d v ∧
      ∀ k, k < 16 → v.getLsbD k = bit ((s.reg r1).getLsbD k) ((s.reg r2).getLsbD k) :=
  ⟨_, _, hexec.trans (threeReg_ok hd h1 h2 rfl), onlyRegisterWritten_setReg .., fun _ _ => hbit⟩

theorem execNot_ok (c : Byte) (hd : dst.toNat = d.val) (hr : src.toNat = r.val) :
    execNot dst src c s = .next (s.setReg d (~~~s.reg r)) :=
  twoReg_ok (f := fun v => ~~~v) hd hr

/-- The complement has no bit above bit 15, so the bits it inverts are those below 16 (R153). -/
theorem getLsbD_not_of_lt {k : Nat} (v : Word) (hk : k < 16) : (~~~v).getLsbD k = !v.getLsbD k := by
  rw [BitVec.getLsbD_not, decide_eq_true hk, Bool.true_and]

end

/-- Settles O15: `and`, `or` and `xor` have the three-register shape and a value that is bitwise, `not` has the two-register
shape; either shape raises for its first bad operand. -/
theorem bitwiseWorkBitByBit : Obligations.BitwiseWorkBitByBit := by
  unfold Obligations.BitwiseWorkBitByBit
  refine ⟨?_, ?_, ?_⟩
  · intro dst src1 src2 d r1 r2 s hd h1 h2
    exact ⟨bitsWritten_of_threeReg (exec_and ..) BitVec.getLsbD_and hd h1 h2,
      bitsWritten_of_threeReg (exec_or ..) BitVec.getLsbD_or hd h1 h2,
      bitsWritten_of_threeReg (exec_xor ..) BitVec.getLsbD_xor hd h1 h2⟩
  · intro dst src c d r s hd hr
    exact ⟨_, _, execNot_ok c hd hr, onlyRegisterWritten_setReg .., BitVec.toNat_not, fun _ => getLsbD_not_of_lt _⟩
  · intro i dst src1 src2 v s hi hbad
    obtain rfl | rfl | rfl | rfl := hi
    · exact ⟨_, (exec_and ..).trans (threeReg_bad hbad), onlyFailureRaised_raise ..⟩
    · exact ⟨_, (exec_or ..).trans (threeReg_bad hbad), onlyFailureRaised_raise ..⟩
    · exact ⟨_, (exec_xor ..).trans (threeReg_bad hbad), onlyFailureRaised_raise ..⟩
    · exact ⟨_, (exec_not ..).trans (twoReg_bad hbad), onlyFailureRaised_raise ..⟩

end Sys2Proof.Machine

/-! ## Exceptions (spec/60_exceptions.md): which failure a handler reports, and what a failing step writes -/

namespace Sys2Proof.Machine

/-! ### The register check (R164, R168 item 4) -/

/-- A failure that blames no register operand: of those a handler can raise, items 3 and 5 of R168. -/
def NotRegisterFailure (f : Failure) : Prop := ∀ v, f ≠ .outOfRangeAccess (.reg v)

/-- What the register check of `i` in `s` leaves possible: the failure of the first bad register operand if there is
one; if there is none, a next state with the status kept, or a failure of another kind. -/
inductive RegisterChecked (i : Instr) (s : State) : Host.Outcome State Fault Refusal → Prop where
  | bad (v : Byte) (hv : i.firstBadReg = some v) : RegisterChecked i s (.next (s.raise (.outOfRangeAccess (.reg v))))
  | done (t : State) (hgood : i.firstBadReg = none) (ht : t.status = s.status) : RegisterChecked i s (.next t)
  | otherFailure (f : Failure) (hgood : i.firstBadReg = none) (hf : NotRegisterFailure f) :
      RegisterChecked i s (.next (s.raise f))

section
variable {i : Instr} {s t : State} {v : Byte}

theorem RegisterChecked.eq_of_bad {o : Host.Outcome State Fault Refusal} (h : RegisterChecked i s o)
    (hv : i.firstBadReg = some v) : o = .next (s.raise (.outOfRangeAccess (.reg v))) := by
  cases h with
  | bad u hu =>
    obtain rfl : u = v := Option.some.inj (hu.symm.trans hv)
    rfl
  | done _ hgood => exact nomatch hgood.symm.trans hv
  | otherFailure _ hgood => exact nomatch hgood.symm.trans hv

/-- A register failure names the first bad operand (R164). -/
theorem RegisterChecked.bad_of_status (h : RegisterChecked i s (.next t)) (hs : s.status = .running)
    (ht : t.status = .halted (.outOfRangeAccess (.reg v))) : i.firstBadReg = some v := by
  cases h with
  | bad u hu =>
    obtain rfl : u = v := by simpa using ht
    exact hu
  | done _ _ hkeep => exact nomatch (hs.symm.trans hkeep.symm).trans ht
  | otherFailure f _ hf => exact absurd (Status.halted.inj ht) (hf v)

theorem firstBadReg_eq_none_iff : i.firstBadReg = none ↔ ∀ v ∈ i.regOperands, v.toNat < 16 := by
  simp [Instr.firstBadReg]

theorem firstBadReg_of_oneReg (hreg : i.regOperands = [v]) (hv : 16 ≤ v.toNat) : i.firstBadReg = some v := by
  simp [Instr.firstBadReg, hreg, hv]

theorem firstBadReg_none_of_oneReg {r : Fin 16} (hreg : i.regOperands = [v]) (hv : v.toNat = r.val) :
    i.firstBadReg = none :=
  firstBadReg_eq_none_iff.mpr (by simp [hreg, hv])

/-- A three-register instruction checks its operands before it asks for its value, whose failure is of another kind. -/
theorem threeReg_registerChecked {dst src1 src2 : Byte} {f : Word → Word → Except Failure Word}
    (hreg : i.regOperands = [dst, src1, src2]) (hf : ∀ v w e, f v w = .error e → NotRegisterFailure e) :
    RegisterChecked i s (threeReg dst src1 src2 f s) := by
  obtain ⟨d, r1, r2, v, hd, h1, h2, -, h⟩ | ⟨d, r1, r2, e, hd, h1, h2, he, h⟩ | ⟨v, hv, h⟩ :=
    threeReg_cases dst src1 src2 f s
  · rw [h]
    exact .done _ (firstBadReg_eq_none_iff.mpr (by simp [hreg, hd, h1, h2])) rfl
  · rw [h]
    exact .otherFailure e (firstBadReg_eq_none_iff.mpr (by simp [hreg, hd, h1, h2])) (hf _ _ _ he)
  · rw [h]
    exact .bad v (by rw [Instr.firstBadReg, hreg, hv])

/-- The same where the value is always defined. -/
theorem threeReg_ok_registerChecked {dst src1 src2 : Byte} (g : Word → Word → Word)
    (hreg : i.regOperands = [dst, src1, src2]) :
    RegisterChecked i s (threeReg dst src1 src2 (fun v w => .ok (g v w)) s) :=
  threeReg_registerChecked hreg nofun

/-- A two-register instruction has no failure but that of its operands. -/
theorem twoReg_registerChecked {dst src : Byte} (f : Word → Word) (hreg : i.regOperands = [dst, src]) :
    RegisterChecked i s (twoReg dst src f s) := by
  obtain ⟨d, r, hd, hr, h⟩ | ⟨v, hv, h⟩ := twoReg_cases dst src f s
  · rw [h]
    exact .done _ (firstBadReg_eq_none_iff.mpr (by simp [hreg, hd, hr])) rfl
  · rw [h]
    exact .bad v (by rw [Instr.firstBadReg, hreg, hv])

theorem quotient_notRegisterFailure {v w : Word} {e : Failure} (h : quotient v w = .error e) :
    NotRegisterFailure e := by
  by_cases hw : w = 0#16
  · rw [hw, quotient_error] at h
    cases h
    exact nofun
  · rw [quotient_ok hw] at h
    cases h

theorem execLoadimm_registerChecked (dst hi lo : Byte) :
    RegisterChecked (.loadimm dst hi lo) s (execLoadimm dst hi lo s) := by
  obtain ⟨d, hd, h⟩ | ⟨h16, h⟩ := execLoadimm_cases dst hi lo s
  · rw [h]; exact .done _ (firstBadReg_none_of_oneReg rfl hd) rfl
  · rw [h]; exact .bad dst (firstBadReg_of_oneReg rfl h16)

theorem execLoad_registerChecked (dst hi lo : Byte) :
    RegisterChecked (.load dst hi lo) s (execLoad dst hi lo s) := by
  obtain ⟨d, hd, -, h⟩ | ⟨d, hd, -, h⟩ | ⟨h16, h⟩ := execLoad_cases dst hi lo s
  · rw [h]; exact .done _ (firstBadReg_none_of_oneReg rfl hd) rfl
  · rw [h]; exact .otherFailure _ (firstBadReg_none_of_oneReg rfl hd) nofun
  · rw [h]; exact .bad dst (firstBadReg_of_oneReg rfl h16)

theorem execStore_registerChecked (hi lo src : Byte) :
    RegisterChecked (.store hi lo src) s (execStore hi lo src s) := by
  obtain ⟨r, hr, -, h⟩ | ⟨r, hr, -, h⟩ | ⟨h16, h⟩ := execStore_cases hi lo src s
  · rw [h]; exact .done _ (firstBadReg_none_of_oneReg rfl hr) rfl
  · rw [h]; exact .otherFailure _ (firstBadReg_none_of_oneReg rfl hr) nofun
  · rw [h]; exact .bad src (firstBadReg_of_oneReg rfl h16)

theorem execJmpIfZero_registerChecked (hi lo src : Byte) :
    RegisterChecked (.jmpIfZero hi lo src) s (execJmpIfZero hi lo src s) := by
  obtain ⟨r, hr, -, h⟩ | ⟨r, hr, -, h⟩ | ⟨h16, h⟩ := execJmpIfZero_cases hi lo src s
  · rw [h]; exact .done _ (firstBadReg_none_of_oneReg rfl hr) rfl
  · rw [h]; exact .done _ (firstBadReg_none_of_oneReg rfl hr) rfl
  · rw [h]; exact .bad src (firstBadReg_of_oneReg rfl h16)

end

/-- Every handler checks its register operands first, in the order `a`, `b`, `c` (D7). -/
theorem exec_registerChecked (i : Instr) (s : State) : RegisterChecked i s (exec i s) := by
  cases i with
  | nop | jmp => exact .done _ rfl rfl
  | jr | jrIfZero => exact .otherFailure _ rfl nofun
  | add d a b => exact threeReg_ok_registerChecked (fun v w => v + w) rfl
  | mul d a b => exact threeReg_ok_registerChecked (fun v w => v * w) rfl
  | sub d a b => exact threeReg_ok_registerChecked (fun v w => v - w) rfl
  | div d a b => exact threeReg_registerChecked rfl fun _ _ _ => quotient_notRegisterFailure
  | eq d a b => exact threeReg_ok_registerChecked (fun v w => b2w (relEq v w)) rfl
  | neq d a b => exact threeReg_ok_registerChecked (fun v w => b2w (relNeq v w)) rfl
  | lt d a b => exact threeReg_ok_registerChecked (fun v w => b2w (relLt v w)) rfl
  | lte d a b => exact threeReg_ok_registerChecked (fun v w => b2w (relLte v w)) rfl
  | gt d a b => exact threeReg_ok_registerChecked (fun v w => b2w (relGt v w)) rfl
  | gte d a b => exact threeReg_ok_registerChecked (fun v w => b2w (relGte s.gteCorrected v w)) rfl
  | and d a b => exact threeReg_ok_registerChecked (fun v w => v &&& w) rfl
  | or d a b => exact threeReg_ok_registerChecked (fun v w => v ||| w) rfl
  | xor d a b => exact threeReg_ok_registerChecked (fun v w => v ^^^ w) rfl
  | copy d a => exact twoReg_registerChecked (fun v => v) rfl
  | not d a => exact twoReg_registerChecked (fun v => ~~~v) rfl
  | loadimm dst hi lo => exact execLoadimm_registerChecked dst hi lo
  | load dst hi lo => exact execLoad_registerChecked dst hi lo
  | store hi lo src => exact execStore_registerChecked hi lo src
  | jmpIfZero hi lo src => exact execJmpIfZero_registerChecked hi lo src

/-- Settles O26: both clauses are read off `exec_registerChecked`. -/
theorem firstBadRegisterOperandDecides : Obligations.FirstBadRegisterOperandDecides := by
  unfold Obligations.FirstBadRegisterOperandDecides
  intro i s
  have hchecked := exec_registerChecked i s
  refine ⟨fun v => hchecked.eq_of_bad, fun v t hs ht hhalt => ?_⟩
  rw [ht] at hchecked
  exact hchecked.bad_of_status hs hhalt

/-! ### What a failing step writes (R166, R167) -/

section
variable {i : Instr} {s t : State} {f : Failure}

/-- A failure that a handler raises is not the end of the program, which belongs to the fetch (R161). -/
theorem HandlerFailure.ne_endOfProgram (h : HandlerFailure f) : f ≠ .endOfProgram := by
  obtain rfl | ⟨r, rfl⟩ | ⟨op, rfl⟩ := h
  · exact nofun
  · exact nofun
  · exact nofun

/-- An effect that halts a running unit does so with a failure of a handler. -/
theorem Effect.handlerFailure (h : Effect i s t) (hs : s.status = .running) (ht : t.status = .halted f) :
    HandlerFailure f := by
  cases h with
  | failure g hg =>
    obtain rfl : g = f := Status.halted.inj ht
    exact hg
  | unchanged | register | memory | jump => exact nomatch hs.symm.trans ht

end

/-- Settles O47: the fetch fails with the pc as it is; an invalid opcode and a handler fail in the advanced state. -/
theorem failingStepWritesOnlyStatusAndPc : Obligations.FailingStepWritesOnlyStatusAndPc := by
  unfold Obligations.FailingStepWritesOnlyStatusAndPc
  intro s t f h ht
  obtain ⟨hs, -, ⟨-, rfl⟩ | ⟨w, -, -, rfl⟩ | ⟨w, i, -, -, -, he⟩⟩ := step_cases h
  · obtain rfl : Failure.endOfProgram = f := Status.halted.inj ht
    rw [if_pos rfl]
  · obtain rfl : Failure.invalidOpcode w.op = f := Status.halted.inj ht
    rw [if_neg nofun]
    rfl
  · have hne : f ≠ .endOfProgram := (he.handlerFailure hs ht).ne_endOfProgram
    rw [if_neg hne]
    exact he.eq_raise hs ht

/-- Settles O43: the byte at the pc is the opcode fetched, and it has no place in the map. -/
theorem stepOnInvalidOpcodeRaises : Obligations.StepOnInvalidOpcodeRaises := by
  unfold Obligations.StepOnInvalidOpcodeRaises
  intro s op hs hl hle hbyte hop
  obtain ⟨w, hf⟩ := exists_fetch_ok hle
  obtain ⟨-, hw, -⟩ := fetch_ok_iff.mp hf
  obtain rfl : w.op = op := Option.some.inj (hw.symm.trans hbyte)
  exact step_of_invalidOpcode hs hl hf hop

/-! ### The failure codes (R160, R197) -/

section
variable {s : State}

theorem statusPort_of_running (h : s.status = .running) : statusPort s = 0 := by simp [statusPort, h]

theorem statusPort_of_halted {f : Failure} (h : s.status = .halted f) : statusPort s = f.code := by
  simp [statusPort, h]

end

/-- Settles O53: the port shows `Failure.code` of the failure that halted the unit. -/
theorem statusPortCodes : Obligations.StatusPortCodes := by
  unfold Obligations.StatusPortCodes
  intro s
  exact ⟨statusPort_of_running, statusPort_of_halted, fun _ => statusPort_of_halted, statusPort_of_halted,
    fun _ => statusPort_of_halted, fun _ => statusPort_of_halted⟩

end Sys2Proof.Machine

/-! ## Reset and the outside (spec/70_reset_and_hazards.md): a word placed for the next fetch, the reset input and the
observer port -/

namespace Sys2Proof.Machine

/-! ### A word placed where the next fetch reads (log entry 3) -/

/-- The placed bytes stand at the head of the stream from their offset on. -/
theorem drop_placeAt (prog : List Byte) (p : Nat) (w : InstrBytes) :
    (placeAt prog p w).drop p = w.toList ++ prog.drop (p + 4) := by
  have hlen : (prog.take p ++ List.replicate (p - prog.length) 0#8).length = p := by
    rw [List.length_append, List.length_take, List.length_replicate]
    omega
  rw [placeAt, List.append_assoc, List.drop_left' hlen]

/-- Where an instruction is placed its four bytes lie inside the longest stream. -/
theorem placePc_add_four_le (s : State) : (placePc s).toNat + 4 ≤ 65536 := by
  unfold placePc
  split
  next h => exact h
  next => decide

theorem placePc_of_le {s : State} (h : s.pc.toNat + 4 ≤ 65536) : placePc s = s.pc :=
  if_pos h

section
variable (s : State) (w : InstrBytes)

theorem length_placeNext_prog_le : (s.placeNext w).prog.length ≤ 65536 :=
  List.length_take_le _ _

/-- The cut at 65536 bytes keeps the placed word, so it is what the next step fetches. -/
theorem fetch_placeNext : fetch (s.placeNext w) = .ok w := by
  have hle := placePc_add_four_le s
  have hfits : w.toList.length ≤ Config.maxStreamLen - (placePc s).toNat := by
    rw [w.length_toList, maxStreamLen_eq]
    omega
  apply fetch_of_drop_pc (rest := (s.prog.drop ((placePc s).toNat + 4)).take
    (Config.maxStreamLen - (placePc s).toNat - w.toList.length))
  show ((placeAt s.prog (placePc s).toNat w).take Config.maxStreamLen).drop (placePc s).toNat = _
  rw [List.drop_take, drop_placeAt, List.take_append, List.take_of_length_le hfits]

end

/-- A word that `decodeTableWord` reads is one whose bytes decode. -/
theorem decode_of_decodeTableWord {nbits w : Nat} {i : Instr} (h : decodeTableWord nbits w = some i) :
    decode (tableWordBytes nbits w) = .ok i := by
  rw [decodeTableWord, ← List.append_nil (tableWordBytes nbits w).toList, decodeBytes_toList_append] at h
  cases hd : decode (tableWordBytes nbits w) with
  | ok j =>
    rw [hd] at h
    obtain rfl : j = i := Option.some.inj h
    rfl
  | error e =>
    rw [hd] at h
    cases h

/-- Settles O40: the placed word is fetched and decodes, so the step is its handler in the advanced state. -/
theorem withFetchWordRunsTheWord : Obligations.WithFetchWordRunsTheWord := by
  unfold Obligations.WithFetchWordRunsTheWord
  intro s nbits w i h
  have hstep : step (s.withFetchWord nbits w) = exec i (advance (s.withFetchWord nbits w)) :=
    step_of_decoded rfl (length_placeNext_prog_le s _) (fetch_placeNext s _) (decode_of_decodeTableWord h)
  exact ⟨_, hstep, rfl, rfl, rfl, rfl, rfl, placePc_of_le⟩

/-! ### The reset input (R190, R199) -/

/-- Settles O17: the reset input is `State.construct` but for the parameter `GTE_CORRECTED`. -/
theorem resetDiscardsEverything : Obligations.ResetDiscardsEverything := by
  unfold Obligations.ResetDiscardsEverything
  intro prog s
  exact ⟨State.construct_reg prog, State.construct_byte prog, rfl, rfl, rfl, rfl⟩

/-! ### The observer port (R196, R85) -/

section
variable {s t : State}

theorem observerPort_of_running (h : step s = .next t) (ht : t.status = .running) :
    observerPort s = some (t.pc, t.regs) := by
  simp [observerPort, h, ht]

theorem observerPort_of_failure {f : Failure} (h : step s = .next t) (ht : t.status = .halted f) :
    observerPort s = none := by
  simp [observerPort, h, ht]

theorem observerPort_of_halted {f : Failure} (h : s.status = .halted f) : observerPort s = none := by
  simp [observerPort, step_of_halted h]

end

/-- Settles O52: a step that succeeds, a step that fails, and no step. -/
theorem observerPortShowsSuccessfulSteps : Obligations.ObserverPortShowsSuccessfulSteps := by
  unfold Obligations.ObserverPortShowsSuccessfulSteps
  exact fun s => ⟨fun _ => observerPort_of_running, fun _ _ => observerPort_of_failure,
    fun _ => observerPort_of_halted⟩

/-! ### A stream that is too long (D4, U10) -/

/-- Settles O45: this is `step_of_too_long`. -/
theorem tooLongStreamIsRefused : Obligations.TooLongStreamIsRefused := by
  unfold Obligations.TooLongStreamIsRefused
  exact fun _ => step_of_too_long

end Sys2Proof.Machine
